-- ==== Sys2Proof/Word.lean ====
section
/-! DEFINITION. Words, bytes and register selectors of the engine (00_scope.md R9). -/

namespace Sys2Proof

/-- A byte: an 8-bit unsigned value (R9). -/
abbrev Byte := BitVec 8

/-- A word: a 32-bit unsigned value (R9; `WORD_BITS` of R7). -/
abbrev Word := BitVec 32

/-- A byte sequence (R11). -/
abbrev Bytes := List Byte

/-- A register selector: one of x0..x15 (R22, R74; `REG_INDEX_BITS` of R8). -/
abbrev Reg := Fin 16

/-- `zeros(n)` is n bytes of 0x00 (R11). -/
def zeros (n : Nat) : Bytes := List.replicate n 0

end Sys2Proof
end

