-- ==== Sys2Proof/Config.lean ====
section
/-! DEFINITION. The build parameter of the engine (00_scope.md R8).
The fixed parameters of R7 and R8 stand as numbers where they are used: `KEY_BYTES` = 32,
`NONCE_BYTES` = 8, `BLOCK_BYTES` = 64, `CTR_BITS` = 64, `DOUBLE_ROUNDS` = 10, `ROT` = (7, 9, 13, 18),
`MAX_FRAME_BYTES` = 2^64 − 1. The spec leaves no value open, so there is no free value. -/

namespace Sys2Proof

/-- `COLUMN_ORDER` (R8, R122): where a column round starts each column.
It is fixed when the engine is built, and no command sets it (R30, R232). -/
inductive ColumnOrder
  /-- The source's literal text, and the default. -/
  | plain
  /-- The column round of standard Salsa20. -/
  | diagonal
deriving DecidableEq, Repr

/-- What is fixed when the engine is built (R8). -/
structure Config where
  columnOrder : ColumnOrder
deriving DecidableEq, Repr

/-- The default build: `COLUMN_ORDER` = `PLAIN` (R8, 92_eei_decisions.md D14). -/
def Config.default : Config := { columnOrder := .plain }

end Sys2Proof
end

