-- ==== Sys2Proof/Machine/Bytes.lean ====
section
/-! DEFINITION. Byte order: every conversion between bytes and words is little-endian
(20_memory.md R52 to R56; 00_scope.md R11). -/

namespace Sys2Proof.Machine

/-- `le32(b0, b1, b2, b3)`, b0 the byte at the lowest position (R11, R52). -/
def le32 (b0 b1 b2 b3 : Byte) : Word :=
  b0.setWidth 32 ||| (b1.setWidth 32 <<< 8) ||| (b2.setWidth 32 <<< 16) ||| (b3.setWidth 32 <<< 24)

/-- `bytes32(w)`: the four bytes of w, least significant first (R53). -/
def bytes32 (w : Word) : Bytes :=
  [w.extractLsb' 0 8, w.extractLsb' 8 8, w.extractLsb' 16 8, w.extractLsb' 24 8]

/-- `le64` of eight bytes: the low word first (R11, R55). -/
def le64 (b0 b1 b2 b3 b4 b5 b6 b7 : Byte) : BitVec 64 :=
  (le32 b0 b1 b2 b3).setWidth 64 ||| ((le32 b4 b5 b6 b7).setWidth 64 <<< 32)

/-- `bytes64(c)`: the eight bytes of c, least significant first (R11, R55). -/
def bytes64 (c : BitVec 64) : Bytes :=
  bytes32 (c.extractLsb' 0 32) ++ bytes32 (c.extractLsb' 32 32)

/-- `s[i]`, byte i of a sequence; used only below the sequence's length (R11). -/
def byteAt (s : Bytes) (i : Nat) : Byte := s.getD i 0

/-- Word i of a byte sequence: from bytes 4i..4i+3 (R54). -/
def wordAt (s : Bytes) (i : Nat) : Word :=
  le32 (byteAt s (4 * i)) (byteAt s (4 * i + 1)) (byteAt s (4 * i + 2)) (byteAt s (4 * i + 3))

/-- The counter operand of SETCTR: `le64` of its eight bytes (R56, R170). -/
def ctrOfBytes (v : Bytes) : BitVec 64 :=
  le64 (byteAt v 0) (byteAt v 1) (byteAt v 2) (byteAt v 3)
    (byteAt v 4) (byteAt v 5) (byteAt v 6) (byteAt v 7)

/-- A byte register of n bytes holding the first n bytes of a sequence (R24, R25). -/
def byteVector (n : Nat) (s : Bytes) : Vector Byte n := Vector.ofFn fun i => byteAt s i

/-- A frame on a channel: its 64-bit length, then its bytes (R71). -/
def frameBytes (s : Bytes) : Bytes := bytes64 (BitVec.ofNat 64 s.length) ++ s

end Sys2Proof.Machine
end

