-- ==== Sys2Proof/Syntax.lean ====
section
/-! DEFINITION. The commands of SQE-CMD version 1: one constructor per row of the opcode map
(30_encoding.md R75), each carrying its register fields and its operand frames as the abstract
command type of R81 does. -/

namespace Sys2Proof

/-- A legal command: header fields and operand frames (R75, R81). -/
inductive Instr
  /-- 0x01: operand frames key and nonce (R167). -/
  | construct (key nonce : Bytes)
  /-- 0x02: operand frame message (R168). -/
  | encrypt (msg : Bytes)
  /-- 0x03: operand frame, the counter value (R170). -/
  | setctr (value : Bytes)
  /-- 0x04 (R171). -/
  | getctr
  /-- 0x05 (R172). -/
  | getstat
  /-- 0x10: operand frame, the 64 bytes to load (R130). -/
  | ldst (block : Bytes)
  /-- 0x11 (R131). -/
  | rdst
  /-- 0x20: four register selectors (R132). -/
  | qr (a b c d : Reg)
  /-- 0x21 (R133). -/
  | cround
  /-- 0x22 (R134). -/
  | rround
  /-- 0x23 (R135). -/
  | dround
  /-- 0x24 (R136). -/
  | core
  /-- 0x25 (R137). -/
  | hash
  /-- 0x30 (R103). -/
  | add (rd rs1 rs2 : Reg)
  /-- 0x31 (R104). -/
  | xor (rd rs1 rs2 : Reg)
  /-- 0x32: SHAMT is 0..31 (R105). -/
  | rotl (rd rs1 : Reg) (shamt : Fin 32)
deriving DecidableEq, Repr

/-- What a legal header word says, before any operand frame is read (R76). -/
inductive Header
  | construct
  | encrypt
  | setctr
  | getctr
  | getstat
  | ldst
  | rdst
  | qr (a b c d : Reg)
  | cround
  | rround
  | dround
  | core
  | hash
  | add (rd rs1 rs2 : Reg)
  | xor (rd rs1 rs2 : Reg)
  | rotl (rd rs1 : Reg) (shamt : Fin 32)
deriving DecidableEq, Repr

/-- The header of a command. -/
def Instr.header : Instr → Header
  | .construct _ _ => .construct
  | .encrypt _ => .encrypt
  | .setctr _ => .setctr
  | .getctr => .getctr
  | .getstat => .getstat
  | .ldst _ => .ldst
  | .rdst => .rdst
  | .qr a b c d => .qr a b c d
  | .cround => .cround
  | .rround => .rround
  | .dround => .dround
  | .core => .core
  | .hash => .hash
  | .add rd rs1 rs2 => .add rd rs1 rs2
  | .xor rd rs1 rs2 => .xor rd rs1 rs2
  | .rotl rd rs1 n => .rotl rd rs1 n

/-- `Operand(0)`, `Operand(1)`, ... of a command, in order (R71). -/
def Instr.frames : Instr → List Bytes
  | .construct key nonce => [key, nonce]
  | .encrypt msg => [msg]
  | .setctr value => [value]
  | .ldst block => [block]
  | .getctr => []
  | .getstat => []
  | .rdst => []
  | .qr _ _ _ _ => []
  | .cround => []
  | .rround => []
  | .dround => []
  | .core => []
  | .hash => []
  | .add _ _ _ => []
  | .xor _ _ _ => []
  | .rotl _ _ _ => []

/-- `FIN(op)`: how many operand frames the header's command consumes (the "in" column of R75). -/
def Header.framesIn : Header → Nat
  | .construct => 2
  | .encrypt => 1
  | .setctr => 1
  | .ldst => 1
  | .getctr => 0
  | .getstat => 0
  | .rdst => 0
  | .qr _ _ _ _ => 0
  | .cround => 0
  | .rround => 0
  | .dround => 0
  | .core => 0
  | .hash => 0
  | .add _ _ _ => 0
  | .xor _ _ _ => 0
  | .rotl _ _ _ => 0

/-- `FOUT(op)`: how many result frames the command sends on success (the "out" column of R75). -/
def Header.framesOut : Header → Nat
  | .encrypt => 1
  | .getctr => 1
  | .getstat => 1
  | .rdst => 1
  | .construct => 0
  | .setctr => 0
  | .ldst => 0
  | .qr _ _ _ _ => 0
  | .cround => 0
  | .rround => 0
  | .dround => 0
  | .core => 0
  | .hash => 0
  | .add _ _ _ => 0
  | .xor _ _ _ => 0
  | .rotl _ _ _ => 0

/-! The pseudo-instructions of R80, each by its expansion. -/

/-- `DECRYPT m` is `ENCRYPT m` (R80, R169). -/
def Instr.decrypt (m : Bytes) : Instr := .encrypt m

/-- `MOV xd, xs` is `ROTL xd, xs, 0` (R80). -/
def Instr.mov (rd rs : Reg) : Instr := .rotl rd rs 0

/-- `CLR xd` is `XOR xd, xd, xd` (R80). -/
def Instr.clr (rd : Reg) : Instr := .xor rd rd rd

/-- `KEYSTREAM n` is `ENCRYPT zeros(n)` (R80). -/
def Instr.keystream (n : Nat) : Instr := .encrypt (zeros n)

/-- `RESETCTR` is `SETCTR 0`, whose frame is eight zero bytes (R79, R80). -/
def Instr.resetctr : Instr := .setctr (zeros 8)

end Sys2Proof
end

