-- ==== Sys2Proof/WellFormed.lean ====
section
/-! DEFINITION. Which commands the command channel can carry. Register selectors and the rotate
amount are in range by their types (R74); a frame has at most `MAX_FRAME_BYTES` bytes (R71, R81). -/

namespace Sys2Proof

/-- One operand frame fits the 64-bit length field (R71). -/
def frameFits (f : Bytes) : Bool := decide (f.length ≤ 2 ^ 64 - 1)

/-- A command that can be sent: every operand frame fits (R71, R81). -/
def Instr.wf (i : Instr) : Bool := i.frames.all frameFits

end Sys2Proof
end

