-- ==== Sys2Proof/Decode.lean ====
section
/-! DEFINITION. The decoder of 30_encoding.md R76, total on every byte sequence, and the encoder,
both from the formats of R73, the fields of R74 and the opcode map of R75. -/

namespace Sys2Proof

open Sys2Proof.Machine (le32 bytes32 le64 frameBytes)

/-- Why a header word is illegal (R77). -/
inductive HeaderReject
  /-- The opcode is not in R75. -/
  | unassignedOpcode
  /-- A reserved (`0`) field of the opcode's format is not zero. -/
  | reservedBits
deriving DecidableEq, Repr

/-- A command as the engine takes it off the channel: legal, or an illegal header word (R81). -/
inductive Cmd
  | legal (i : Instr)
  | illegal (w : Word)
deriving DecidableEq, Repr

/-- The decoder's answer on the bytes of the command channel. -/
inductive Decoded
  /-- The first command, and the bytes after it. -/
  | command (c : Cmd) (rest : Bytes)
  /-- Bytes of the first command are still missing: the engine waits (R233). -/
  | incomplete
deriving DecidableEq, Repr

/-! ## Fields (R74) -/

/-- `OP = w[7:0]`. -/
def opField (w : Word) : BitVec 8 := w.extractLsb' 0 8

/-- The 4-bit register selector whose lowest bit is `lo`. -/
def regField (w : Word) (lo : Nat) : Reg := (w.extractLsb' lo 4).toFin

/-- `SHAMT = w[24:20]`. -/
def shamtField (w : Word) : Fin 32 := (w.extractLsb' 20 5).toFin

/-! ## Decoding -/

/-- The header if the format's reserved bits are zero (R73, R77). -/
def ifReservedZero (ok : Bool) (h : Header) : Except HeaderReject Header :=
  if ok then .ok h else .error .reservedBits

/-- Format N: `w[31:8]` is reserved. -/
def reservedZeroN (w : Word) : Bool := w.extractLsb' 8 24 == 0

/-- Format Q: `w[31:24]` is reserved. -/
def reservedZeroQ (w : Word) : Bool := w.extractLsb' 24 8 == 0

/-- Format R: `w[31:20]` is reserved. -/
def reservedZeroR (w : Word) : Bool := w.extractLsb' 20 12 == 0

/-- Format I: `w[31:25]` and `w[19:16]` are reserved. -/
def reservedZeroI (w : Word) : Bool := w.extractLsb' 25 7 == 0 && w.extractLsb' 16 4 == 0

/-- `decode(w)` of R76: one answer for each of the 2^32 header words. -/
def decodeHeader (w : Word) : Except HeaderReject Header :=
  match (opField w).toNat with
  | 0x01 => ifReservedZero (reservedZeroN w) .construct
  | 0x02 => ifReservedZero (reservedZeroN w) .encrypt
  | 0x03 => ifReservedZero (reservedZeroN w) .setctr
  | 0x04 => ifReservedZero (reservedZeroN w) .getctr
  | 0x05 => ifReservedZero (reservedZeroN w) .getstat
  | 0x10 => ifReservedZero (reservedZeroN w) .ldst
  | 0x11 => ifReservedZero (reservedZeroN w) .rdst
  | 0x20 => ifReservedZero (reservedZeroQ w)
      (.qr (regField w 8) (regField w 12) (regField w 16) (regField w 20))
  | 0x21 => ifReservedZero (reservedZeroN w) .cround
  | 0x22 => ifReservedZero (reservedZeroN w) .rround
  | 0x23 => ifReservedZero (reservedZeroN w) .dround
  | 0x24 => ifReservedZero (reservedZeroN w) .core
  | 0x25 => ifReservedZero (reservedZeroN w) .hash
  | 0x30 => ifReservedZero (reservedZeroR w) (.add (regField w 8) (regField w 12) (regField w 16))
  | 0x31 => ifReservedZero (reservedZeroR w) (.xor (regField w 8) (regField w 12) (regField w 16))
  | 0x32 => ifReservedZero (reservedZeroI w) (.rotl (regField w 8) (regField w 12) (shamtField w))
  | _ => .error .unassignedOpcode

/-- The header word at the front of the channel, least significant byte first (R56, R70). -/
def takeWord : Bytes → Option (Word × Bytes)
  | b0 :: b1 :: b2 :: b3 :: rest => some (le32 b0 b1 b2 b3, rest)
  | _ => none

/-- The frame at the front of the channel: a 64-bit length, then that many bytes (R71). -/
def takeFrame : Bytes → Option (Bytes × Bytes)
  | b0 :: b1 :: b2 :: b3 :: b4 :: b5 :: b6 :: b7 :: rest =>
    if (le64 b0 b1 b2 b3 b4 b5 b6 b7).toNat ≤ rest.length then
      some (rest.take (le64 b0 b1 b2 b3 b4 b5 b6 b7).toNat,
        rest.drop (le64 b0 b1 b2 b3 b4 b5 b6 b7).toNat)
    else none
  | _ => none

/-- A command with one operand frame (R70). -/
def withFrame (mk : Bytes → Instr) (bs : Bytes) : Decoded :=
  match takeFrame bs with
  | some (f, rest) => .command (.legal (mk f)) rest
  | none => .incomplete

/-- The operand frames of a legal header's command, `FIN(op)` of them (R70, R75). -/
def decodeFrames (h : Header) (bs : Bytes) : Decoded :=
  match h with
  | .construct =>
    match takeFrame bs with
    | some (key, rest) => withFrame (.construct key) rest
    | none => .incomplete
  | .encrypt => withFrame .encrypt bs
  | .setctr => withFrame .setctr bs
  | .ldst => withFrame .ldst bs
  | .getctr => .command (.legal .getctr) bs
  | .getstat => .command (.legal .getstat) bs
  | .rdst => .command (.legal .rdst) bs
  | .qr a b c d => .command (.legal (.qr a b c d)) bs
  | .cround => .command (.legal .cround) bs
  | .rround => .command (.legal .rround) bs
  | .dround => .command (.legal .dround) bs
  | .core => .command (.legal .core) bs
  | .hash => .command (.legal .hash) bs
  | .add rd rs1 rs2 => .command (.legal (.add rd rs1 rs2)) bs
  | .xor rd rs1 rs2 => .command (.legal (.xor rd rs1 rs2)) bs
  | .rotl rd rs1 n => .command (.legal (.rotl rd rs1 n)) bs

/-- The first command on the channel. An illegal header consumes no operand frames (R77). -/
def decode (bs : Bytes) : Decoded :=
  match takeWord bs with
  | none => .incomplete
  | some (w, rest) =>
    match decodeHeader w with
    | .ok h => decodeFrames h rest
    | .error _ => .command (.illegal w) rest

/-! ## Encoding -/

/-- `OP` of a header (R75). -/
def Header.opcode : Header → Nat
  | .construct => 0x01
  | .encrypt => 0x02
  | .setctr => 0x03
  | .getctr => 0x04
  | .getstat => 0x05
  | .ldst => 0x10
  | .rdst => 0x11
  | .qr _ _ _ _ => 0x20
  | .cround => 0x21
  | .rround => 0x22
  | .dround => 0x23
  | .core => 0x24
  | .hash => 0x25
  | .add _ _ _ => 0x30
  | .xor _ _ _ => 0x31
  | .rotl _ _ _ => 0x32

/-- The operand fields of a header at their places; reserved fields zero (R73, R74). -/
def Header.fields : Header → Nat
  | .qr a b c d => a.val * 2 ^ 8 + b.val * 2 ^ 12 + c.val * 2 ^ 16 + d.val * 2 ^ 20
  | .add rd rs1 rs2 => rd.val * 2 ^ 8 + rs1.val * 2 ^ 12 + rs2.val * 2 ^ 16
  | .xor rd rs1 rs2 => rd.val * 2 ^ 8 + rs1.val * 2 ^ 12 + rs2.val * 2 ^ 16
  | .rotl rd rs1 n => rd.val * 2 ^ 8 + rs1.val * 2 ^ 12 + n.val * 2 ^ 20
  | .construct => 0
  | .encrypt => 0
  | .setctr => 0
  | .getctr => 0
  | .getstat => 0
  | .ldst => 0
  | .rdst => 0
  | .cround => 0
  | .rround => 0
  | .dround => 0
  | .core => 0
  | .hash => 0

/-- The header word of a header (R73). -/
def encodeHeader (h : Header) : Word := BitVec.ofNat 32 (h.opcode + h.fields)

/-- What the host sends for a command: the header word, then each operand frame (R70, R71). -/
def encode (i : Instr) : Bytes :=
  bytes32 (encodeHeader i.header) ++ i.frames.flatMap frameBytes

/-- What the host sends for a command of R81: an illegal header word is sent alone (R77). -/
def encodeCmd : Cmd → Bytes
  | .legal i => encode i
  | .illegal w => bytes32 w

/-- A command of R81: a legal one that can be sent, or a header word that is illegal (R76, R77). -/
def Cmd.wf : Cmd → Bool
  | .legal i => i.wf
  | .illegal w =>
    match decodeHeader w with
    | .ok _ => false
    | .error _ => true

/-! ## The opcode table as masks (R76) -/

/-- One row of opcode_table.json: a legal word w of the row has `w &&& mask = pattern`. -/
structure OpcodeRow where
  mnemonic : String
  pattern : Word
  mask : Word
deriving DecidableEq, Repr

/-- The 16 rows of opcode_table.json. -/
def opcodeTable : List OpcodeRow :=
  [⟨"CONSTRUCT", 0x00000001, 0xFFFFFFFF⟩, ⟨"ENCRYPT", 0x00000002, 0xFFFFFFFF⟩,
   ⟨"SETCTR", 0x00000003, 0xFFFFFFFF⟩, ⟨"GETCTR", 0x00000004, 0xFFFFFFFF⟩,
   ⟨"GETSTAT", 0x00000005, 0xFFFFFFFF⟩, ⟨"LDST", 0x00000010, 0xFFFFFFFF⟩,
   ⟨"RDST", 0x00000011, 0xFFFFFFFF⟩, ⟨"QR", 0x00000020, 0xFF0000FF⟩,
   ⟨"CROUND", 0x00000021, 0xFFFFFFFF⟩, ⟨"RROUND", 0x00000022, 0xFFFFFFFF⟩,
   ⟨"DROUND", 0x00000023, 0xFFFFFFFF⟩, ⟨"CORE", 0x00000024, 0xFFFFFFFF⟩,
   ⟨"HASH", 0x00000025, 0xFFFFFFFF⟩, ⟨"ADD", 0x00000030, 0xFFF000FF⟩,
   ⟨"XOR", 0x00000031, 0xFFF000FF⟩, ⟨"ROTL", 0x00000032, 0xFE0F00FF⟩]

/-- The mnemonic of a header (R75). -/
def Header.mnemonic : Header → String
  | .construct => "CONSTRUCT"
  | .encrypt => "ENCRYPT"
  | .setctr => "SETCTR"
  | .getctr => "GETCTR"
  | .getstat => "GETSTAT"
  | .ldst => "LDST"
  | .rdst => "RDST"
  | .qr _ _ _ _ => "QR"
  | .cround => "CROUND"
  | .rround => "RROUND"
  | .dround => "DROUND"
  | .core => "CORE"
  | .hash => "HASH"
  | .add _ _ _ => "ADD"
  | .xor _ _ _ => "XOR"
  | .rotl _ _ _ => "ROTL"

/-! ## One table word -/

/-- The header word whose bits are the low `nbits` bits of `w`. -/
def tableWord (nbits w : Nat) : Word := BitVec.ofNat 32 (w % 2 ^ nbits)

/-- How many operand frames follow a header word: `FIN(op)`, and none after an illegal one (R77). -/
def framesAfter (w : Word) : Nat :=
  match decodeHeader w with
  | .ok h => h.framesIn
  | .error _ => 0

/-- A header word as it stands on the channel, followed by its operand frames, each of length 0. -/
def tableBytes (nbits w : Nat) : Bytes :=
  bytes32 (tableWord nbits w) ++ zeros (8 * framesAfter (tableWord nbits w))

/-- The instruction the decoder reads from a header word whose operand frames are empty. -/
def decodeTableWord (nbits w : Nat) : Option Instr :=
  match decode (tableBytes nbits w) with
  | .command (.legal i) _ => some i
  | .command (.illegal _) _ => none
  | .incomplete => none

end Sys2Proof
end

