-- ==== Sys2Proof/Machine/State.lean ====
section
/-! DEFINITION. The state of the engine as plain data (10_state.md R20), its reset value (R36), and
the reasons a step can stop. -/

namespace Sys2Proof.Machine

/-- The state matrix: 16 words x0..x15, held row-major (R21, R22). -/
abbrev StateMatrix := Vector Word 16

/-- The error codes of 60_exceptions.md R201, by name. -/
inductive ErrCode
  | ok
  | invalidKeyLength
  | invalidNonceLength
  /-- Reserved: never produced (R205). -/
  | lengthMismatch
  | keystreamExhausted
  | noInstance
  | illegalCommand
  | operandLength
  | operandAlias
deriving DecidableEq, Repr

/-- One response: the error code and, on success, the result frames (R72, R81). -/
structure Resp where
  code : BitVec 8
  frames : List Bytes
deriving DecidableEq, Repr

/-- The engine's registers, its two channels, the response it is sending, its reset input and its build parameter. -/
structure State where
  /-- The build parameter `COLUMN_ORDER` (R8). It is no register: no step changes it.
  DESIGN CHOICE (log 1): it stands here because the step takes no other argument. -/
  cfg : Config
  /-- The state matrix register file x0..x15 (R21). -/
  x : StateMatrix
  /-- KEY (R24). -/
  key : Vector Byte 32
  /-- NONCE (R25). -/
  nonce : Vector Byte 8
  /-- CTR, the 64-bit block counter (R26). -/
  ctr : BitVec 64
  /-- VALID: an instance exists (R27). -/
  valid : Bool
  /-- EXH: the block at counter value 2^64 − 1 has been used (R28). -/
  exh : Bool
  /-- LAST_ERR, the code of the last command other than GETSTAT (R29). -/
  lastErr : BitVec 8
  /-- The command channel: bytes the host has sent and no command has used, oldest first
  (R70; log 2). -/
  cmdIn : Bytes
  /-- The bytes of the current response that the engine has still to send, first byte first (R70, R72).
  While there are any, it reads no new command (R70), and reset drops them (R230; log 5). -/
  sending : Bytes
  /-- The response channel: bytes the engine has sent and the host has not read, oldest first
  (R70; log 4). -/
  respOut : Bytes
  /-- The level of the reset input: true while asserted (R230; log 5). -/
  resetPin : Bool
deriving DecidableEq, Repr

/-- Why a step stops for good. -/
inductive Fault
  /-- XOR of unequal-length buffers (R205; 93_implementation_defined.md I1, I2: treatment `fault`).
  Raised by ENCRYPT's internal check only, and no command reaches it. Safe: it stops where the spec
  says the engine has left the spec. -/
  | lengthMismatch
deriving DecidableEq, Repr

/-- Why a step has no meaning. -/
inductive Refusal
  /-- Raised by exec's arm of an instruction that has no meaning yet. No arm of this model does. Safe. -/
  | notModelled (mnemonic : String)
deriving DecidableEq, Repr

/-- The state after reset of an engine built with `cfg`: every register as R36 says, both channels
empty, no response being sent, the reset input released (R230, R231). -/
def State.resetWith (cfg : Config) : State where
  cfg := cfg
  x := Vector.replicate 16 0
  key := Vector.replicate 32 0
  nonce := Vector.replicate 8 0
  ctr := 0
  valid := false
  exh := false
  lastErr := 0
  cmdIn := []
  sending := []
  respOut := []
  resetPin := false

/-- The state after reset of the default build, `COLUMN_ORDER` = `PLAIN` (R8, R36; log 1). -/
def State.reset : State := State.resetWith Config.default

end Sys2Proof.Machine
end

