-- ==== Sys2Proof/Machine/Operands.lean ====
section
/-! DEFINITION. Operand forms: a register selector reads or writes one word of the state matrix
(10_state.md R21, R22); a 64-byte sequence is the whole matrix (20_memory.md R54). -/

namespace Sys2Proof.Machine

/-- The matrix position `state[row][col]`: x[4·row + col] (R22). -/
def pos (row col : Fin 4) : Reg := ⟨4 * row.val + col.val, by omega⟩

/-- `x[r]` (R12). -/
def State.reg (s : State) (r : Reg) : Word := s.x[r]

/-- `x[r] <- v` (R12). No register is hardwired (R21). -/
def State.setReg (s : State) (r : Reg) (v : Word) : State := { s with x := s.x.set r v }

/-- Writing all 16 words of x. -/
def State.setX (s : State) (m : StateMatrix) : State := { s with x := m }

/-- The matrix of a 64-byte sequence: word i from bytes 4i..4i+3, row-major (R54). -/
def matrixOfBytes (b : Bytes) : StateMatrix := Vector.ofFn fun i => wordAt b i

/-- The 64 bytes of a matrix: `bytes32(x[0]) ++ ... ++ bytes32(x[15])` (R54). -/
def bytesOfMatrix (m : StateMatrix) : Bytes := m.toList.flatMap bytes32

/-- QR's condition on its selectors: A, B, C and D pairwise distinct (R132). -/
def pairwiseDistinct (a b c d : Reg) : Bool :=
  a != b && a != c && a != d && b != c && b != d && c != d

end Sys2Proof.Machine
end

