-- ==== Sys2Proof/Machine/Ops.lean ====
section
/-! DEFINITION. The shared operations of every command: the word functions (40_alu.md R100 to R102),
sending a response (30_encoding.md R72), completing a command, and raising an error
(60_exceptions.md R203). The engine has no return from an error (R208). -/

namespace Sys2Proof.Machine

/-! ## Word functions -/

/-- `rotl32(v, n)` for n in 0..31 (R100). At n = 0 the right shift by 32 gives 0, so the result is v. -/
def rotl32 (v : Word) (n : Nat) : Word := (v <<< n) ||| (v >>> (32 - n))

/-- `a +32 b`: wrapping addition, the carry recorded nowhere (R101). -/
def add32 (a b : Word) : Word := a + b

/-- `a ^ b` (R102). -/
def xor32 (a b : Word) : Word := a ^^^ b

/-! ## Responses and errors -/

/-- The number of an error code (R201). -/
def ErrCode.code : ErrCode → BitVec 8
  | .ok => 0x00
  | .invalidKeyLength => 0x01
  | .invalidNonceLength => 0x02
  | .lengthMismatch => 0x03
  | .keystreamExhausted => 0x04
  | .noInstance => 0x05
  | .illegalCommand => 0x06
  | .operandLength => 0x07
  | .operandAlias => 0x08

/-- A response as it stands on the response channel: the response word `zext_32(code)`, then the
result frames in order (R72). -/
def Resp.serialize (r : Resp) : Bytes := bytes32 (r.code.setWidth 32) ++ r.frames.flatMap frameBytes

/-- The response is produced: the engine is to send its bytes before it reads a new command (R63, R70). -/
def State.send (s : State) (r : Resp) : State := { s with sending := s.sending ++ r.serialize }

/-- The first byte of the response goes out on the response channel; `rest` is still to send (R70; log 4). -/
def State.sendByte (s : State) (b : Byte) (rest : Bytes) : State :=
  { s with sending := rest, respOut := s.respOut ++ [b] }

/-- The whole response has been sent (R70). -/
def State.sendAll (s : State) : State :=
  { s with sending := [], respOut := s.respOut ++ s.sending }

/-- `LAST_ERR <- c`. -/
def State.setLastErr (s : State) (c : BitVec 8) : State := { s with lastErr := c }

/-- The bytes of the command now executing leave the command channel (R70). -/
def State.consume (s : State) (rest : Bytes) : State := { s with cmdIn := rest }

/-- A successful response with the emitted frames, and nothing else: how GETSTAT ends (R172). -/
def reply (frames : List Bytes) (s : State) : Host.Outcome State Fault Refusal :=
  .next (s.send { code := ErrCode.ok.code, frames := frames })

/-- How every other command ends on success: `Emit`s sent, `LAST_ERR <- 0x00` (R29, R72). -/
def complete (frames : List Bytes) (s : State) : Host.Outcome State Fault Refusal :=
  reply frames (s.setLastErr ErrCode.ok.code)

/-- `raise E` (R12, R203): the response is exactly the response word, `LAST_ERR <- E`, and no other
register changes. A failed CONSTRUCT's clearing is done before it, by CONSTRUCT. -/
def raiseErr (e : ErrCode) (s : State) : Host.Outcome State Fault Refusal :=
  .next ((s.setLastErr e.code).send { code := e.code, frames := [] })

/-- An illegal header word: ILLEGAL_COMMAND, no state change except LAST_ERR (R77). -/
def illegalHeader (s : State) : Host.Outcome State Fault Refusal := raiseErr .illegalCommand s

/-- Bytes of the current command are missing: the engine waits, and nothing changes (R233; log 3). -/
def waitForHost (s : State) : Host.Outcome State Fault Refusal := .next s

/-- The reset input is asserted: every register takes its reset value, the rest of a response being sent
is dropped, and what stands on the command channel is discarded. Bytes already sent, the build and the
pin's level stay (R230; log 5). -/
def inReset (s : State) : State :=
  { State.resetWith s.cfg with respOut := s.respOut, resetPin := s.resetPin }

end Sys2Proof.Machine
end

