-- ==== Sys2Proof/Machine/Alu.lean ====
section
/-! DEFINITION. The ALU commands (40_alu.md R103 to R105). Sources are read before RD is written. -/

namespace Sys2Proof.Machine

/-- ADD (R103). -/
def execAdd (rd rs1 rs2 : Reg) (s : State) : Host.Outcome State Fault Refusal :=
  complete [] (s.setReg rd (add32 (s.reg rs1) (s.reg rs2)))

/-- XOR (R104). -/
def execXor (rd rs1 rs2 : Reg) (s : State) : Host.Outcome State Fault Refusal :=
  complete [] (s.setReg rd (xor32 (s.reg rs1) (s.reg rs2)))

/-- ROTL (R105). -/
def execRotl (rd rs1 : Reg) (shamt : Fin 32) (s : State) : Host.Outcome State Fault Refusal :=
  complete [] (s.setReg rd (rotl32 (s.reg rs1) shamt.val))

end Sys2Proof.Machine
end

