-- ==== Sys2Proof/Machine/Permutation.lean ====
section
/-! DEFINITION. The quarter-round, the rounds, the core and the feed-forward as functions on words
and matrices (41_rounds.md R120 to R129). -/

namespace Sys2Proof.Machine

/-- `QR(a, b, c, d)`: four steps, each using the values the earlier steps produced (R120). -/
def quarterRound (a b c d : Word) : Word × Word × Word × Word :=
  let b' := xor32 b (rotl32 (add32 a d) 7)
  let c' := xor32 c (rotl32 (add32 b' a) 9)
  let d' := xor32 d (rotl32 (add32 c' b') 13)
  let a' := xor32 a (rotl32 (add32 d' c') 18)
  (a', b', c', d')

/-- The inverse of QR (R121). -/
def quarterRoundInv (a' b' c' d' : Word) : Word × Word × Word × Word :=
  let a := xor32 a' (rotl32 (add32 d' c') 18)
  let d := xor32 d' (rotl32 (add32 c' b') 13)
  let c := xor32 c' (rotl32 (add32 b' a) 9)
  let b := xor32 b' (rotl32 (add32 a d) 7)
  (a, b, c, d)

/-- The four positions one quarter-round reads and writes, in the order a, b, c, d. -/
structure Lane where
  a : Reg
  b : Reg
  c : Reg
  d : Reg
deriving DecidableEq, Repr

/-- The four positions as a list. -/
def Lane.positions (l : Lane) : List Reg := [l.a, l.b, l.c, l.d]

/-- `CIDX(j)`: column j's positions under `COLUMN_ORDER` (R122). -/
def cidx (order : ColumnOrder) (j : Fin 4) : Lane :=
  match order with
  | .plain => ⟨pos 0 j, pos 1 j, pos 2 j, pos 3 j⟩
  | .diagonal => ⟨pos j j, pos (j + 1) j, pos (j + 2) j, pos (j + 3) j⟩

/-- `RIDX(i)`: row i's positions, starting at the diagonal; they do not depend on `COLUMN_ORDER`
(R124). -/
def ridx (i : Fin 4) : Lane := ⟨pos i i, pos i (i + 1), pos i (i + 2), pos i (i + 3)⟩

/-- `(x[p0], x[p1], x[p2], x[p3]) <- QR(x[p0], x[p1], x[p2], x[p3])`: the four words are read before
any is written (R123, R132). -/
def qrLane (l : Lane) (x : StateMatrix) : StateMatrix :=
  match quarterRound x[l.a] x[l.b] x[l.c] x[l.d] with
  | (a, b, c, d) => (((x.set l.a a).set l.b b).set l.c c).set l.d d

/-- Quarter-rounds on the lanes `lane j`, for j in the given order. -/
def roundOver (lane : Fin 4 → Lane) (order : List (Fin 4)) (x : StateMatrix) : StateMatrix :=
  order.foldl (fun y j => qrLane (lane j) y) x

/-- The order in which a round's pseudocode takes its quarter-rounds: `for j in 0..3` (R123). -/
def laneOrder : List (Fin 4) := [0, 1, 2, 3]

/-- `ColumnRound(x)` (R123). -/
def columnRound (order : ColumnOrder) (x : StateMatrix) : StateMatrix :=
  roundOver (cidx order) laneOrder x

/-- `RowRound(x)` (R125). -/
def rowRound (x : StateMatrix) : StateMatrix := roundOver ridx laneOrder x

/-- `DoubleRound(x) = RowRound(ColumnRound(x))` (R127). -/
def doubleRound (order : ColumnOrder) (x : StateMatrix) : StateMatrix :=
  rowRound (columnRound order x)

/-- n double-rounds, one after another. -/
def doubleRoundsN (order : ColumnOrder) : Nat → StateMatrix → StateMatrix
  | 0, x => x
  | n + 1, x => doubleRoundsN order n (doubleRound order x)

/-- `Core(x)`: exactly 10 double-rounds (R128). -/
def coreRounds (order : ColumnOrder) (x : StateMatrix) : StateMatrix :=
  doubleRoundsN order 10 x

/-- `y[i] +32 j[i]` for every i: the feed-forward (R129). -/
def feedForward (y j : StateMatrix) : StateMatrix := Vector.zipWith add32 y j

/-- `Hash(x)`: Core, then feed-forward of the saved initial matrix (R129). -/
def hashMatrix (order : ColumnOrder) (x : StateMatrix) : StateMatrix :=
  feedForward (coreRounds order x) x

end Sys2Proof.Machine
end

