-- ==== Sys2Proof/Machine/Rounds.lean ====
section
/-! DEFINITION. The state-matrix commands (41_rounds.md R130 to R137). -/

namespace Sys2Proof.Machine

/-- LDST (R130). -/
def execLdst (block : Bytes) (s : State) : Host.Outcome State Fault Refusal :=
  if block.length = 64 then complete [] (s.setX (matrixOfBytes block))
  else raiseErr .operandLength s

/-- RDST (R131). -/
def execRdst (s : State) : Host.Outcome State Fault Refusal := complete [bytesOfMatrix s.x] s

/-- QR (R132). -/
def execQr (a b c d : Reg) (s : State) : Host.Outcome State Fault Refusal :=
  if pairwiseDistinct a b c d then complete [] (s.setX (qrLane ⟨a, b, c, d⟩ s.x))
  else raiseErr .operandAlias s

/-- CROUND, with the configured `COLUMN_ORDER` (R133). -/
def execCround (s : State) : Host.Outcome State Fault Refusal :=
  complete [] (s.setX (columnRound s.cfg.columnOrder s.x))

/-- RROUND (R134). -/
def execRround (s : State) : Host.Outcome State Fault Refusal := complete [] (s.setX (rowRound s.x))

/-- DROUND (R135). -/
def execDround (s : State) : Host.Outcome State Fault Refusal :=
  complete [] (s.setX (doubleRound s.cfg.columnOrder s.x))

/-- CORE (R136). -/
def execCore (s : State) : Host.Outcome State Fault Refusal :=
  complete [] (s.setX (coreRounds s.cfg.columnOrder s.x))

/-- HASH (R137). -/
def execHash (s : State) : Host.Outcome State Fault Refusal :=
  complete [] (s.setX (hashMatrix s.cfg.columnOrder s.x))

end Sys2Proof.Machine
end

