-- ==== Sys2Proof/Machine/Expansion.lean ====
section
/-! DEFINITION. Block expansion, keystream and the XOR of a message (42_keystream.md R160 to R166). -/

namespace Sys2Proof.Machine

/-- SIGMA0, "expa" (R160). -/
def sigma0 : Bytes := [0x65, 0x78, 0x70, 0x61]

/-- SIGMA1, "nd 3" (R160). -/
def sigma1 : Bytes := [0x6e, 0x64, 0x20, 0x33]

/-- SIGMA2, "2-by" (R160). -/
def sigma2 : Bytes := [0x32, 0x2d, 0x62, 0x79]

/-- SIGMA3, "te k" (R160). -/
def sigma3 : Bytes := [0x74, 0x65, 0x20, 0x6b]

/-- `Init(K, N, c)`, the 64-byte initial block (R161; 90_conflicts.md C1). -/
def initBlock (key : Vector Byte 32) (nonce : Vector Byte 8) (c : BitVec 64) : Bytes :=
  sigma0 ++ key.toList.take 16 ++ sigma1 ++ nonce.toList ++ bytes64 c ++ sigma2 ++
    key.toList.drop 16 ++ sigma3

/-- `Block(K, N, c)`: 64 keystream bytes (R163). It reads nothing but its arguments (R173). -/
def keyBlock (order : ColumnOrder) (key : Vector Byte 32) (nonce : Vector Byte 8) (c : BitVec 64) :
    Bytes :=
  bytesOfMatrix (hashMatrix order (matrixOfBytes (initBlock key nonce c)))

/-- `Keystream(K, N, c, n)`: the blocks at counters c, c + 1, ..., c + n − 1 (R164). ENCRYPT uses it
only where c + n ≤ 2^64. -/
def keystream (order : ColumnOrder) (key : Vector Byte 32) (nonce : Vector Byte 8) :
    BitVec 64 → Nat → Bytes
  | _, 0 => []
  | c, n + 1 => keyBlock order key nonce c ++ keystream order key nonce (c + 1) n

/-- `nblocks(m) = ceil(len(m) / 64)` (R165). -/
def nblocks (m : Bytes) : Nat := (m.length + 63) / 64

/-- `XorStream(m, ks)`: m XORed with the first len(m) bytes of ks (R166). A shorter ks is the
unequal-length XOR that must be rejected (R205; 93_implementation_defined.md I1). -/
def xorStream (m ks : Bytes) : Option Bytes :=
  if m.length ≤ ks.length then some (List.zipWith (fun a b => a ^^^ b) m ks) else none

end Sys2Proof.Machine
end

