-- ==== Sys2Proof/Machine/Flags.lean ====
section
/-! DEFINITION. The status bits VALID and EXH, the instance registers they describe, and the STATUS
word (10_state.md R24 to R30). The engine has no arithmetic flags (R33). -/

namespace Sys2Proof.Machine

/-- A successful CONSTRUCT: KEY and NONCE loaded, CTR <- 0, EXH <- 0, VALID <- 1 (R167). -/
def State.makeInstance (s : State) (key : Vector Byte 32) (nonce : Vector Byte 8) : State :=
  { s with
    key := key
    nonce := nonce
    ctr := 0
    exh := false
    valid := true }

/-- A failed CONSTRUCT: VALID <- 0 and KEY, NONCE, CTR and EXH zeroed (R167, R203). -/
def State.clearInstance (s : State) : State :=
  { s with
    key := Vector.replicate 32 0
    nonce := Vector.replicate 8 0
    ctr := 0
    exh := false
    valid := false }

/-- SETCTR: CTR <- c, EXH <- 0 (R170). -/
def State.setCtr (s : State) (c : BitVec 64) : State := { s with ctr := c, exh := false }

/-- How many blocks remain before the counter would wrap: `avail` of R168. -/
def State.blocksLeft (s : State) : Nat := if s.exh then 0 else 2 ^ 64 - s.ctr.toNat

/-- ENCRYPT's counter update after n blocks: the wrap at 2^64 sets EXH (R28, R168). -/
def State.advanceCtr (s : State) (n : Nat) : State :=
  if s.ctr.toNat + n = 2 ^ 64 then { s with ctr := 0, exh := true }
  else { s with ctr := s.ctr + BitVec.ofNat 64 n }

/-- A status bit as a word. -/
def bitWord (b : Bool) : Word := if b then 1 else 0

/-- The STATUS word: VALID in bit 0, EXH in bit 1, LAST_ERR in bits 15:8, other bits 0 (R30, R172). -/
def State.statusWord (s : State) : Word :=
  bitWord s.valid ||| (bitWord s.exh <<< 1) ||| (s.lastErr.setWidth 32 <<< 8)

end Sys2Proof.Machine
end

