-- ==== Sys2Proof/Machine/Stream.lean ====
section
/-! DEFINITION. The instance and stream commands (42_keystream.md R167 to R172). Each tests its errors
in the order of 60_exceptions.md R204. -/

namespace Sys2Proof.Machine

/-- CONSTRUCT (R167). A failed one destroys any earlier instance (92_eei_decisions.md D9). -/
def execConstruct (key nonce : Bytes) (s : State) : Host.Outcome State Fault Refusal :=
  if key.length ≠ 32 then raiseErr .invalidKeyLength s.clearInstance
  else if nonce.length ≠ 8 then raiseErr .invalidNonceLength s.clearInstance
  else complete [] (s.makeInstance (byteVector 32 key) (byteVector 8 nonce))

/-- The keystream ENCRYPT generates for n blocks: `Keystream(KEY, NONCE, CTR, n)` (R168). -/
def State.keystream (s : State) (n : Nat) : Bytes :=
  Sys2Proof.Machine.keystream s.cfg.columnOrder s.key s.nonce s.ctr n

/-- What ENCRYPT leaves in the registers: CTR and EXH advanced, x zeroized (R168, D18). -/
def State.afterEncrypt (s : State) (n : Nat) : State :=
  (s.advanceCtr n).setX (Vector.replicate 16 0)

/-- ENCRYPT (R168). -/
def execEncrypt (msg : Bytes) (s : State) : Host.Outcome State Fault Refusal :=
  if s.valid = false then raiseErr .noInstance s
  else if s.blocksLeft < nblocks msg then raiseErr .keystreamExhausted s
  else
    match xorStream msg (s.keystream (nblocks msg)) with
    | some out => complete [out] (s.afterEncrypt (nblocks msg))
    | none => .fault .lengthMismatch

/-- SETCTR (R170). -/
def execSetctr (value : Bytes) (s : State) : Host.Outcome State Fault Refusal :=
  if value.length ≠ 8 then raiseErr .operandLength s
  else if s.valid = false then raiseErr .noInstance s
  else complete [] (s.setCtr (ctrOfBytes value))

/-- GETCTR (R171). -/
def execGetctr (s : State) : Host.Outcome State Fault Refusal :=
  if s.valid = false then raiseErr .noInstance s else complete [bytes64 s.ctr] s

/-- GETSTAT: LAST_ERR is not written (R172). -/
def execGetstat (s : State) : Host.Outcome State Fault Refusal := reply [bytes32 s.statusWord] s

end Sys2Proof.Machine
end

