-- ==== Sys2Proof/Machine/Dispatch.lean ====
section
/-! DEFINITION. One arm per command: each calls that command's meaning. -/

namespace Sys2Proof.Machine

def exec (i : Instr) (s : State) : Host.Outcome State Fault Refusal :=
  match i with
  | .construct key nonce => Sys2Proof.Machine.execConstruct key nonce s
  | .encrypt msg => Sys2Proof.Machine.execEncrypt msg s
  | .setctr value => Sys2Proof.Machine.execSetctr value s
  | .getctr => Sys2Proof.Machine.execGetctr s
  | .getstat => Sys2Proof.Machine.execGetstat s
  | .ldst block => Sys2Proof.Machine.execLdst block s
  | .rdst => Sys2Proof.Machine.execRdst s
  | .qr a b c d => Sys2Proof.Machine.execQr a b c d s
  | .cround => Sys2Proof.Machine.execCround s
  | .rround => Sys2Proof.Machine.execRround s
  | .dround => Sys2Proof.Machine.execDround s
  | .core => Sys2Proof.Machine.execCore s
  | .hash => Sys2Proof.Machine.execHash s
  | .add rd rs1 rs2 => Sys2Proof.Machine.execAdd rd rs1 rs2 s
  | .xor rd rs1 rs2 => Sys2Proof.Machine.execXor rd rs1 rs2 s
  | .rotl rd rs1 shamt => Sys2Proof.Machine.execRotl rd rs1 shamt s

end Sys2Proof.Machine
end

