-- ==== Sys2Proof/Machine/Step.lean ====
section
/-! DEFINITION. One step of the engine: it takes the next command off the command channel and executes
it atomically, or sends a byte of the response (30_encoding.md R70, R81; 20_memory.md R63). -/

namespace Sys2Proof.Machine

/-- Executing a command as R81's `step` does: an arm for each legal command, and the error arm. -/
def execCmd (c : Cmd) (s : State) : Host.Outcome State Fault Refusal :=
  match c with
  | .legal i => exec i s
  | .illegal _ => illegalHeader s

/-- An engine with no response to send takes one whole command off the channel and executes it, or waits
for the bytes that are missing (R70, R233). -/
def stepCommand (s : State) : Host.Outcome State Fault Refusal :=
  match decode s.cmdIn with
  | .command c rest => execCmd c (s.consume rest)
  | .incomplete => waitForHost s

/-- One step. While the reset input is asserted the engine is in reset (R230). Otherwise it sends the next
byte of its response (R70, R72), or, when the whole response is sent, turns to the next command. -/
def step (s : State) : Host.Outcome State Fault Refusal :=
  if s.resetPin then .next (inReset s)
  else
    match s.sending with
    | b :: rest => .next (s.sendByte b rest)
    | [] => stepCommand s

/-- The host sends a table word as the next command: the header word and `FIN(op)` empty frames stand
at the front of the command channel, an earlier response has been sent, and the reset input is released
(log 2). -/
def State.withFetchWord (s : State) (nbits w : Nat) : State :=
  { s.sendAll with cmdIn := tableBytes nbits w ++ s.cmdIn, resetPin := false }

end Sys2Proof.Machine
end

