-- ==== Sys2Proof/Machine/Assembler.lean ====
section
/-! DEFINITION. The assembler syntax of SQE-CMD (30_encoding.md R79), its pseudo-instructions (R80),
and the disassembler. What R79 leaves open is log 8. -/

namespace Sys2Proof.Machine

/-- Why the assembler refuses a line (R79). -/
inductive AsmError
  /-- A character or a literal that is no token. -/
  | badToken
  /-- The line does not begin with a mnemonic or a pseudo-instruction. -/
  | unknownMnemonic
  /-- The operands are not those of the mnemonic. -/
  | badOperands
  /-- A register name outside x0..x15. -/
  | registerRange
  /-- A ROTL amount outside 0..31. -/
  | amountRange
  /-- A SETCTR integer outside 0..2^64−1. -/
  | counterRange
  /-- A byte string longer than a frame can carry. -/
  | frameTooLong
deriving DecidableEq, Repr

/-- The tokens of a line. -/
inductive Token
  /-- A run of letters and digits: a mnemonic, a register, an integer or a word literal. -/
  | run (cs : List Char)
  /-- A quoted or a hexadecimal byte string. -/
  | bytes (b : Bytes)
  /-- A punctuation character. -/
  | punct (c : Char)
deriving DecidableEq, Repr

/-! ## Characters -/

/-- The left brace. -/
def lbrace : Char := Char.ofNat 0x7B

/-- The right brace. -/
def rbrace : Char := Char.ofNat 0x7D

/-- The double quote. -/
def dquote : Char := Char.ofNat 0x22

/-- The backslash. -/
def bslash : Char := Char.ofNat 0x5C

/-- The value of a hexadecimal digit. -/
def hexDigit (c : Char) : Option Nat :=
  if '0' ≤ c ∧ c ≤ '9' then some (c.toNat - '0'.toNat)
  else if 'a' ≤ c ∧ c ≤ 'f' then some (c.toNat - 'a'.toNat + 10)
  else if 'A' ≤ c ∧ c ≤ 'F' then some (c.toNat - 'A'.toNat + 10)
  else none

/-- The value of a decimal digit. -/
def decDigit (c : Char) : Option Nat :=
  if '0' ≤ c ∧ c ≤ '9' then some (c.toNat - '0'.toNat) else none

/-- A number in the given base from its digits, at least one. -/
def digitsValue (base : Nat) (digit : Char → Option Nat) : List Char → Option Nat
  | [] => none
  | cs => cs.foldl (fun acc c => acc.bind fun n => (digit c).map fun d => n * base + d) (some 0)

/-- An integer operand: decimal, or hexadecimal with `0x` (R79). -/
def intLiteral : List Char → Option Nat
  | '0' :: 'x' :: cs => digitsValue 16 hexDigit cs
  | cs => digitsValue 10 decDigit cs

/-- A word literal of the brace form: eight hexadecimal digits, or an integer below 2^32 (log 8). -/
def wordLiteral (cs : List Char) : Option Word :=
  match (if cs.length = 8 then digitsValue 16 hexDigit cs else none) with
  | some n => some (BitVec.ofNat 32 n)
  | none =>
    match intLiteral cs with
    | some n => if n < 2 ^ 32 then some (BitVec.ofNat 32 n) else none
    | none => none

/-! ## Tokens -/

/-- Where the lexer stands inside a line. -/
inductive LexMode
  | plain
  | run (acc : List Char)
  | text (acc : Bytes)
  | escape (acc : Bytes)
  | hex (acc : Bytes)
  | hexLow (high : Nat) (acc : Bytes)
  | comment
deriving DecidableEq, Repr

/-- A punctuation character of R79. -/
def isPunct (c : Char) : Bool :=
  c == ',' || c == '(' || c == ')' || c == '*' || c == lbrace || c == rbrace

/-- A character met outside any token, the tokens so far newest first. -/
def lexPlain (c : Char) (ts : List Token) : Option (LexMode × List Token) :=
  if c = ' ' ∨ c = '\t' then some (.plain, ts)
  else if c = ';' then some (.comment, ts)
  else if c = dquote then some (.text [], ts)
  else if c.isAlphanum then some (.run [c], ts)
  else if isPunct c then some (.plain, .punct c :: ts)
  else none

/-- One character of the line. `h` directly before a quote opens a hexadecimal string. DESIGN CHOICE (log 8):
a `;` inside a quoted text is a byte of the text and starts no comment. -/
def lexChar (mode : LexMode) (c : Char) (ts : List Token) : Option (LexMode × List Token) :=
  match mode with
  | .plain => lexPlain c ts
  | .comment => some (.comment, ts)
  | .run acc =>
    if c.isAlphanum then some (.run (c :: acc), ts)
    else if c = dquote then (if acc = ['h'] then some (.hex [], ts) else none)
    else lexPlain c (.run acc.reverse :: ts)
  | .text acc =>
    if c = dquote then some (.plain, .bytes acc.reverse :: ts)
    else if c = bslash then some (.escape acc, ts)
    else if c.toNat < 0x80 then some (.text (BitVec.ofNat 8 c.toNat :: acc), ts)
    else none
  | .escape acc =>
    if c = dquote ∨ c = bslash then some (.text (BitVec.ofNat 8 c.toNat :: acc), ts) else none
  | .hex acc =>
    if c = dquote then some (.plain, .bytes acc.reverse :: ts)
    else (hexDigit c).map fun d => (.hexLow d acc, ts)
  | .hexLow high acc => (hexDigit c).map fun d => (.hex (BitVec.ofNat 8 (16 * high + d) :: acc), ts)

/-- The tokens of a line, in order. -/
def lex : LexMode → List Token → List Char → Option (List Token)
  | .plain, ts, [] => some ts.reverse
  | .comment, ts, [] => some ts.reverse
  | .run acc, ts, [] => some (.run acc.reverse :: ts).reverse
  | .text _, _, [] => none
  | .escape _, _, [] => none
  | .hex _, _, [] => none
  | .hexLow _ _, _, [] => none
  | mode, ts, c :: cs =>
    match lexChar mode c ts with
    | some (mode', ts') => lex mode' ts' cs
    | none => none

/-! ## Operands -/

/-- An operand of a line. -/
inductive Operand
  | reg (n : Nat)
  | int (n : Nat)
  | bytes (b : Bytes)
deriving DecidableEq, Repr

/-- A register name: `x<n>`, or `s<row><col>` meaning x(4·row+col) (R22, R79). -/
def registerName : List Char → Option Nat
  | ['s', r, c] =>
    match decDigit r, decDigit c with
    | some row, some col => if row < 4 ∧ col < 4 then some (4 * row + col) else none
    | _, _ => none
  | 'x' :: '0' :: _ :: _ => none
  | 'x' :: cs => digitsValue 10 decDigit cs
  | _ => none

/-- The words of a brace form after its left brace: n more words, then the right brace. -/
def braceWords : Nat → List Token → Option (List Word × List Token)
  | 1, .run cs :: .punct c :: ts =>
    match wordLiteral cs with
    | some w => if c = rbrace then some ([w], ts) else none
    | none => none
  | n + 1, .run cs :: .punct c :: ts =>
    match wordLiteral cs, braceWords n ts with
    | some w, some (ws, ts') => if c = ',' then some (w :: ws, ts') else none
    | _, _ => none
  | _, _ => none

/-- The `* n` that may follow a byte string, which repeats it n times (R79). -/
def repeats (b : Bytes) : List Token → Bytes × List Token
  | .punct '*' :: .run cs :: ts =>
    match intLiteral cs with
    | some n => repeats (List.replicate n b).flatten ts
    | none => (b, .punct '*' :: .run cs :: ts)
  | ts => (b, ts)

/-- One operand and the tokens after it (R79). -/
def operand : List Token → Except AsmError (Operand × List Token)
  | .bytes b :: ts => .ok (.bytes (repeats b ts).1, (repeats b ts).2)
  | .punct c :: ts =>
    if c = lbrace then
      match braceWords 16 ts with
      | some (ws, ts') =>
        .ok (.bytes (repeats (ws.flatMap bytes32) ts').1, (repeats (ws.flatMap bytes32) ts').2)
      | none => .error .badOperands
    else .error .badOperands
  | .run ['z', 'e', 'r', 'o', 's'] :: .punct '(' :: .run cs :: .punct ')' :: ts =>
    match intLiteral cs with
    | some n => .ok (.bytes (repeats (zeros n) ts).1, (repeats (zeros n) ts).2)
    | none => .error .badOperands
  | .run cs :: ts =>
    match registerName cs with
    | some n => .ok (.reg n, ts)
    | none =>
      match intLiteral cs with
      | some n => .ok (.int n, ts)
      | none => .error .badOperands
  | [] => .error .badOperands

/-- The operands of a line, separated by commas; at most `fuel` of them. -/
def operands : Nat → List Token → Except AsmError (List Operand)
  | 0, _ => .error .badOperands
  | fuel + 1, ts =>
    match operand ts with
    | .error e => .error e
    | .ok (o, []) => .ok [o]
    | .ok (o, .punct c :: ts') =>
      if c = ',' then
        match operands fuel ts' with
        | .ok os => .ok (o :: os)
        | .error e => .error e
      else .error .badOperands
    | .ok (_, _) => .error .badOperands

/-- The operands after a mnemonic: none, or a list with commas. -/
def operandList : List Token → Except AsmError (List Operand)
  | [] => .ok []
  | ts => operands ts.length ts

/-! ## Lines -/

/-- A register of the engine, or the assembler's refusal (R79). -/
def checkReg (n : Nat) : Except AsmError Reg :=
  if h : n < 16 then .ok ⟨n, h⟩ else .error .registerRange

/-- A rotate amount, or the assembler's refusal (R79). -/
def checkAmount (n : Nat) : Except AsmError (Fin 32) :=
  if h : n < 32 then .ok ⟨n, h⟩ else .error .amountRange

/-- Two registers. -/
def checkReg2 (mk : Reg → Reg → Instr) (a b : Nat) : Except AsmError Instr :=
  match checkReg a, checkReg b with
  | .ok ra, .ok rb => .ok (mk ra rb)
  | _, _ => .error .registerRange

/-- Three registers. -/
def checkReg3 (mk : Reg → Reg → Reg → Instr) (a b c : Nat) : Except AsmError Instr :=
  match checkReg a, checkReg b, checkReg c with
  | .ok ra, .ok rb, .ok rc => .ok (mk ra rb rc)
  | _, _, _ => .error .registerRange

/-- The command a mnemonic and its operands stand for: the operand table of R79 and the expansions
of R80. -/
def command (mnemonic : String) (ops : List Operand) : Except AsmError Instr :=
  match mnemonic, ops with
  | "CONSTRUCT", [.bytes k, .bytes n] => .ok (.construct k n)
  | "ENCRYPT", [.bytes m] => .ok (.encrypt m)
  | "DECRYPT", [.bytes m] => .ok (.decrypt m)
  | "KEYSTREAM", [.int n] => .ok (.keystream n)
  | "SETCTR", [.bytes v] => .ok (.setctr v)
  | "SETCTR", [.int n] =>
    if n < 2 ^ 64 then .ok (.setctr (bytes64 (BitVec.ofNat 64 n))) else .error .counterRange
  | "RESETCTR", [] => .ok .resetctr
  | "GETCTR", [] => .ok .getctr
  | "GETSTAT", [] => .ok .getstat
  | "LDST", [.bytes b] => .ok (.ldst b)
  | "RDST", [] => .ok .rdst
  | "QR", [.reg a, .reg b, .reg c, .reg d] =>
    match checkReg d with
    | .ok rd => checkReg3 (fun ra rb rc => .qr ra rb rc rd) a b c
    | .error e => .error e
  | "CROUND", [] => .ok .cround
  | "RROUND", [] => .ok .rround
  | "DROUND", [] => .ok .dround
  | "CORE", [] => .ok .core
  | "HASH", [] => .ok .hash
  | "ADD", [.reg d, .reg a, .reg b] => checkReg3 .add d a b
  | "XOR", [.reg d, .reg a, .reg b] => checkReg3 .xor d a b
  | "ROTL", [.reg d, .reg a, .int n] =>
    match checkAmount n with
    | .ok k => checkReg2 (fun rd ra => .rotl rd ra k) d a
    | .error e => .error e
  | "MOV", [.reg d, .reg a] => checkReg2 .mov d a
  | "CLR", [.reg d] => checkReg2 (fun rd _ => .clr rd) d d
  | m, _ =>
    if m ∈ ["CONSTRUCT", "ENCRYPT", "DECRYPT", "KEYSTREAM", "SETCTR", "RESETCTR", "GETCTR", "GETSTAT",
        "LDST", "RDST", "QR", "CROUND", "RROUND", "DROUND", "CORE", "HASH", "ADD", "XOR", "ROTL", "MOV",
        "CLR"] then .error .badOperands
    else .error .unknownMnemonic

/-- One line of assembler text: at most one command (R79). Mnemonics are case-insensitive. -/
def assembleLine (line : List Char) : Except AsmError (Option Instr) :=
  match lex .plain [] line with
  | none => .error .badToken
  | some [] => .ok none
  | some (.run cs :: ts) =>
    match operandList ts with
    | .error e => .error e
    | .ok ops =>
      match command (String.ofList (cs.map Char.toUpper)) ops with
      | .error e => .error e
      | .ok i => if i.wf then .ok (some i) else .error .frameTooLong
  | some (_ :: _) => .error .unknownMnemonic

/-! ## Disassembly -/

/-- A hexadecimal digit. -/
def hexChar (n : Nat) : Char := if n < 10 then Char.ofNat (0x30 + n) else Char.ofNat (0x57 + n)

/-- A byte string in its hexadecimal form (R79). -/
def hexString (b : Bytes) : List Char :=
  'h' :: dquote :: b.flatMap (fun v => [hexChar (v.toNat / 16), hexChar (v.toNat % 16)]) ++ [dquote]

/-- A number in decimal, below 100: registers and rotate amounts. -/
def decString (n : Nat) : List Char :=
  if n < 10 then [hexChar n] else [hexChar (n / 10), hexChar (n % 10)]

/-- A register's name (R21). -/
def regString (r : Reg) : List Char := 'x' :: decString r.val

/-- The operands of a command as text, in R79's order. -/
def operandStrings : Instr → List (List Char)
  | .construct k n => [hexString k, hexString n]
  | .encrypt m => [hexString m]
  | .setctr v => [hexString v]
  | .ldst b => [hexString b]
  | .qr a b c d => [regString a, regString b, regString c, regString d]
  | .add rd rs1 rs2 => [regString rd, regString rs1, regString rs2]
  | .xor rd rs1 rs2 => [regString rd, regString rs1, regString rs2]
  | .rotl rd rs1 n => [regString rd, regString rs1, decString n.val]
  | .getctr => []
  | .getstat => []
  | .rdst => []
  | .cround => []
  | .rround => []
  | .dround => []
  | .core => []
  | .hash => []

/-- The base mnemonic of a command; a pseudo-instruction is not recovered (R80). -/
def mnemonicOf : Instr → List Char
  | .construct _ _ => "CONSTRUCT".toList
  | .encrypt _ => "ENCRYPT".toList
  | .setctr _ => "SETCTR".toList
  | .getctr => "GETCTR".toList
  | .getstat => "GETSTAT".toList
  | .ldst _ => "LDST".toList
  | .rdst => "RDST".toList
  | .qr _ _ _ _ => "QR".toList
  | .cround => "CROUND".toList
  | .rround => "RROUND".toList
  | .dround => "DROUND".toList
  | .core => "CORE".toList
  | .hash => "HASH".toList
  | .add _ _ _ => "ADD".toList
  | .xor _ _ _ => "XOR".toList
  | .rotl _ _ _ => "ROTL".toList

/-- One line for a command (R79, R80). -/
def disassemble (i : Instr) : List Char :=
  mnemonicOf i ++ (if operandStrings i = [] then [] else ' ' :: [',', ' '].intercalate (operandStrings i))

end Sys2Proof.Machine
end

