-- ==== Sys2Proof/Machine/HostInterface.lean ====
section
/-! DEFINITION. What the host can do to the engine (30_encoding.md R70, 70_reset_and_hazards.md R230),
and a run of commands (R238). -/

namespace Sys2Proof.Machine

/-- The host sends bytes on the command channel. -/
def State.hostSend (s : State) (bs : Bytes) : State := { s with cmdIn := s.cmdIn ++ bs }

/-- What the host reads when it takes n bytes from the response channel. -/
def State.hostRead (s : State) (n : Nat) : Bytes := s.respOut.take n

/-- The engine after the host has taken n bytes from the response channel. -/
def State.hostTook (s : State) (n : Nat) : State := { s with respOut := s.respOut.drop n }

/-- The host asserts (true) or releases (false) the reset input. -/
def State.setResetPin (s : State) (level : Bool) : State := { s with resetPin := level }

/-- A list of legal commands executed in order, each on the state its predecessor left (R63). -/
def execAll : List Instr → State → Host.Outcome State Fault Refusal
  | [], s => .next s
  | i :: is, s =>
    match exec i s with
    | .next t => execAll is t
    | .fault f => .fault f
    | .refused r => .refused r

/-- The registers of R20. -/
structure Registers where
  x : StateMatrix
  key : Vector Byte 32
  nonce : Vector Byte 8
  ctr : BitVec 64
  valid : Bool
  exh : Bool
  lastErr : BitVec 8
deriving DecidableEq, Repr

/-- The registers of R20 in a state. -/
def State.registers (s : State) : Registers where
  x := s.x
  key := s.key
  nonce := s.nonce
  ctr := s.ctr
  valid := s.valid
  exh := s.exh
  lastErr := s.lastErr

/-- A run that has ended: the bytes of each command's response, in order, and the state when the last of
them has been completely sent (R238). -/
structure Run where
  responses : List Bytes
  final : State
deriving DecidableEq, Repr

/-- What R238 says is observed of a run: the responses and the registers at its end. -/
def Run.observation (r : Run) : List Bytes × Registers := (r.responses, r.final.registers)

/-- The run of a list of commands, legal or illegal headers: each is executed on the state its predecessor
left, and its whole response is sent before the next (R63, R70, R81, R238). -/
def runCommands : List Cmd → State → Host.Outcome Run Fault Refusal
  | [], s => .next { responses := [], final := s }
  | c :: cs, s =>
    match execCmd c s with
    | .next t =>
      match runCommands cs t.sendAll with
      | .next r => .next { r with responses := t.sending :: r.responses }
      | .fault f => .fault f
      | .refused r => .refused r
    | .fault f => .fault f
    | .refused r => .refused r

/-- A run: a finite list of commands sent after a reset of an engine built with `cfg` (R238). -/
def runFromReset (cfg : Config) (cs : List Cmd) : Host.Outcome Run Fault Refusal :=
  runCommands cs (State.resetWith cfg)

end Sys2Proof.Machine
end

