-- ==== Sys2Proof/Safety.lean ====
section
/-! DEFINITION. What the engine's statements speak of: the invariants of its registers, the errors each
command can raise, and what a safe step is. -/

namespace Sys2Proof.Machine

/-- The codes a command can report: 0x00 to 0x08 but for LENGTH_MISMATCH (R201, R205). -/
def reportedCodes : List (BitVec 8) :=
  [ErrCode.ok.code, ErrCode.invalidKeyLength.code, ErrCode.invalidNonceLength.code,
   ErrCode.keystreamExhausted.code, ErrCode.noInstance.code, ErrCode.illegalCommand.code,
   ErrCode.operandLength.code, ErrCode.operandAlias.code]

/-- The invariant of the instance registers and of LAST_ERR.
- R35: if EXH = 1 then CTR = 0 and VALID = 1.
- R24 to R27, R36, R167: with no instance, KEY, NONCE and CTR are zero.
- R201, R205: LAST_ERR is a code the engine can report. -/
structure State.Inv (s : State) : Prop where
  exhausted : s.exh = true → s.ctr = 0 ∧ s.valid = true
  noInstance : s.valid = false →
    s.key = Vector.replicate 32 0 ∧ s.nonce = Vector.replicate 8 0 ∧ s.ctr = 0
  lastErrReported : s.lastErr ∈ reportedCodes

/-- The errors a legal command can raise (R202, less ILLEGAL_COMMAND, which decode raises). -/
def possibleErrors : Instr → List ErrCode
  | .construct _ _ => [.invalidKeyLength, .invalidNonceLength]
  | .encrypt _ => [.noInstance, .keystreamExhausted]
  | .setctr _ => [.operandLength, .noInstance]
  | .getctr => [.noInstance]
  | .ldst _ => [.operandLength]
  | .qr _ _ _ _ => [.operandAlias]
  | .getstat => []
  | .rdst => []
  | .cround => []
  | .rround => []
  | .dround => []
  | .core => []
  | .hash => []
  | .add _ _ _ => []
  | .xor _ _ _ => []
  | .rotl _ _ _ => []

/-- A safe step answers a next state: the engine never stops (R200, R236). -/
def SafeOutcome (o : Host.Outcome State Fault Refusal) : Prop := ∃ t, o = .next t

/-- The reserved field of format N is zero (R73). -/
def reservedN (w : Word) : Prop := w.toNat / 2 ^ 8 = 0

/-- The reserved field of format Q is zero (R73). -/
def reservedQ (w : Word) : Prop := w.toNat / 2 ^ 24 = 0

/-- The reserved field of format R is zero (R73). -/
def reservedR (w : Word) : Prop := w.toNat / 2 ^ 20 = 0

/-- The reserved fields of format I are zero (R73). -/
def reservedI (w : Word) : Prop := w.toNat / 2 ^ 25 = 0 ∧ w.toNat / 2 ^ 16 % 2 ^ 4 = 0

/-- The lines "Encoding" and "ILLEGAL_COMMAND" of an instruction's rule. A header word with opcode `op`
whose reserved bits are zero is the command `means` says; with a reserved bit set it is answered with
ILLEGAL_COMMAND, consumes no frame, and changes no state but LAST_ERR (R76, R77). -/
def HeaderWords (op : Nat) (reserved : Word → Prop) (means : Word → Header → Prop) : Prop :=
  ∀ w : Word, w.toNat % 2 ^ 8 = op →
    (reserved w → ∃ h, decodeHeader w = .ok h ∧ means w h) ∧
    (¬ reserved w → ∀ (s : State) (rest : Bytes),
      s.resetPin = false → s.sending = [] → s.cmdIn = bytes32 w ++ rest →
      step s = .next { s with
        cmdIn := rest
        lastErr := 0x06
        sending := [0x06, 0, 0, 0] })

end Sys2Proof.Machine
end

