-- ==== Sys2Proof/Certificates/Slice0/Obligations.lean ====
section
/-! DEFINITION. The statements about the engine. Each names the rule of spec/ it formalises. A command's
response is appended to the bytes the engine is to send, `sending`, and is written as those bytes: the
response word, least significant byte first, then each result frame as its 64-bit length and its bytes
(30_encoding.md R71, R72). -/

open Sys2Proof Sys2Proof.Machine

/-! ## Reset -/

/-- R36: on reset every register takes the value of R36's table, whatever the build. -/
def Obligations.ResetGivesEveryRegisterItsResetValue : Prop :=
  ∀ cfg : Config,
    (∀ r : Reg, (State.resetWith cfg).reg r = 0x00000000) ∧
    (State.resetWith cfg).key.toList = zeros 32 ∧
    (State.resetWith cfg).nonce.toList = zeros 8 ∧
    (State.resetWith cfg).ctr = 0 ∧
    (State.resetWith cfg).valid = false ∧
    (State.resetWith cfg).exh = false ∧
    (State.resetWith cfg).lastErr = 0x00

/-- R230 with log 5 (the model's choices: the input is sampled at each step, and every byte standing on the
command channel is discarded): while the reset input is asserted a step gives every register its reset
value, drops the rest of a response being sent, and empties the command channel; bytes already sent, the
build and the pin's level stay. -/
def Obligations.AssertedResetInputResetsTheEngine : Prop :=
  ∀ s : State, s.resetPin = true →
    ∃ t, step s = .next t ∧ t.sending = [] ∧ t.cmdIn = [] ∧
      t = { State.resetWith s.cfg with respOut := s.respOut, resetPin := true }

/-- R230, item 2, with log 5 (the model's choices, as above): if reset is asserted when k bytes of a command's
response have been sent, the host gets those k bytes and no more of it, and every register has its reset
value. -/
def Obligations.ResetCutsTheResponseShort : Prop :=
  ∀ (s t : State) (i : Instr) (rest : Bytes) (k : Nat),
    s.resetPin = false → s.sending = [] → decode s.cmdIn = .command (.legal i) rest →
    exec i { s with cmdIn := rest } = .next t → k ≤ t.sending.length →
    ∃ u, Sys2Proof.core.run (1 + k) s = .next u ∧
      step (u.setResetPin true) =
        .next { State.resetWith s.cfg with respOut := s.respOut ++ t.sending.take k, resetPin := true }

/-! ## Encoding -/

/-- Words written out from the encodings of R73 to R75 and from 95_test_vectors.md section 2, as they
stand on the channel, decode to the commands they stand for; reserved opcodes and non-zero reserved
fields are illegal. -/
def Obligations.DecodingOfWordsWrittenFromTheSpec : Prop :=
  decode [0x30, 0x13, 0x02, 0x00] = .command (.legal (.add 3 1 2)) [] ∧
  decode [0x31, 0xff, 0x0f, 0x00] = .command (.legal (.xor 15 15 15)) [] ∧
  decode [0x32, 0x21, 0xf0, 0x01] = .command (.legal (.rotl 1 2 31)) [] ∧
  decode [0x20, 0x40, 0xc8, 0x00] = .command (.legal (.qr 0 4 8 12)) [] ∧
  decode [0x25, 0x00, 0x00, 0x00, 0x11] = .command (.legal .hash) [0x11] ∧
  decode [0x02, 0, 0, 0, 3, 0, 0, 0, 0, 0, 0, 0, 0x61, 0x62, 0x63] =
    .command (.legal (.encrypt [0x61, 0x62, 0x63])) [] ∧
  decode [0x30, 0x13, 0x12, 0x00] = .command (.illegal 0x00121330) [] ∧
  decode [0x32, 0x21, 0x70, 0x02] = .command (.illegal 0x02702132) [] ∧
  decode [0x06, 0x00, 0x00, 0x00] = .command (.illegal 0x00000006) []

/-- R70, R71, R74, R76: decoding what the host sends for any well-formed command gives it back, every
field and every frame, and leaves the bytes after it. -/
def Obligations.DecodeOfEncodeIsTheCommand : Prop :=
  ∀ (i : Instr) (rest : Bytes), i.wf = true → decode (encode i ++ rest) = .command (.legal i) rest

/-- R70, R73: a legal command has one spelling on the channel: the bytes it was decoded from. -/
def Obligations.LegalCommandHasOneEncoding : Prop :=
  ∀ (bs rest : Bytes) (i : Instr), decode bs = .command (.legal i) rest →
    i.wf = true ∧ bs = encode i ++ rest

/-- R76 with opcode_table.json: a header word is a command of a row exactly when its masked bits are the
row's pattern. -/
def Obligations.LegalHeadersAreTheOpcodeTable : Prop :=
  ∀ w : Word,
    (∀ h, decodeHeader w = .ok h →
      ∃ row ∈ opcodeTable, row.mnemonic = h.mnemonic ∧ w &&& row.mask = row.pattern) ∧
    (∀ row ∈ opcodeTable, w &&& row.mask = row.pattern →
      ∃ h, decodeHeader w = .ok h ∧ h.mnemonic = row.mnemonic)

/-- R77: a header word whose opcode is not in R75, or with a non-zero reserved field, gets the response
ILLEGAL_COMMAND with no frame; nothing changes but LAST_ERR, and the bytes after the word stay on the
channel, to be read as the next header. -/
def Obligations.IllegalHeaderIsAnsweredAndChangesNothing : Prop :=
  ∀ (s : State) (w : Word) (rest : Bytes),
    s.resetPin = false → s.sending = [] → s.cmdIn = bytes32 w ++ rest →
    ((w.toNat % 2 ^ 8 ∉
        [0x01, 0x02, 0x03, 0x04, 0x05, 0x10, 0x11, 0x20, 0x21, 0x22, 0x23, 0x24, 0x25, 0x30, 0x31, 0x32]) ∨
      (w.toNat % 2 ^ 8 ∈ [0x01, 0x02, 0x03, 0x04, 0x05, 0x10, 0x11, 0x21, 0x22, 0x23, 0x24, 0x25] ∧
        w.toNat / 2 ^ 8 ≠ 0) ∨
      (w.toNat % 2 ^ 8 = 0x20 ∧ w.toNat / 2 ^ 24 ≠ 0) ∨
      (w.toNat % 2 ^ 8 ∈ [0x30, 0x31] ∧ w.toNat / 2 ^ 20 ≠ 0) ∨
      (w.toNat % 2 ^ 8 = 0x32 ∧ (w.toNat / 2 ^ 25 ≠ 0 ∨ w.toNat / 2 ^ 16 % 2 ^ 4 ≠ 0))) →
    step s = .next { s with
      cmdIn := rest
      lastErr := 0x06
      sending := [0x06, 0, 0, 0] }

/-! ## The step and the channels -/

/-- R63, R70: when nothing is left to send and the channel's first bytes decode to a command, a step is that
command executed on the state from which its bytes have left the channel. -/
def Obligations.StepExecutesTheDecodedCommand : Prop :=
  ∀ (s : State) (i : Instr) (rest : Bytes),
    s.resetPin = false → s.sending = [] → decode s.cmdIn = .command (.legal i) rest →
    step s = exec i { s with cmdIn := rest }

/-- R70, with log 4 (the model's choice: the host never delays a byte): while bytes of a response are still
to be sent, a step sends the first of them and does nothing else, so no new command is read; after as many
steps as there are bytes the whole response has been sent, in order. -/
def Obligations.ResponseIsSentBeforeTheNextCommand : Prop :=
  ∀ s : State, s.resetPin = false →
    (∀ b bs, s.sending = b :: bs →
      step s = .next { s with sending := bs, respOut := s.respOut ++ [b] }) ∧
    Sys2Proof.core.run s.sending.length s =
      .next { s with sending := [], respOut := s.respOut ++ s.sending }

/-- R236: a command whose frames have all arrived completes, in the model in one step after the response
before it has been sent, and its bytes leave the channel. -/
def Obligations.SentCommandCompletesInOneStep : Prop :=
  ∀ (s : State) (i : Instr) (rest : Bytes),
    s.resetPin = false → s.sending = [] → i.wf = true → s.cmdIn = encode i ++ rest →
    ∃ t, step s = .next t ∧ exec i { s with cmdIn := rest } = .next t ∧ t.cmdIn = rest

/-- R233, first duty, as log 3 reads it (DEDUCED, the model's reading of "stuck state"): while bytes of a
command are missing, a step is a next state equal to the state before; no byte leaves the channel. -/
def Obligations.EngineWaitsForMissingBytes : Prop :=
  ∀ (s : State) (i : Instr) (missing : Bytes),
    s.resetPin = false → s.sending = [] → i.wf = true → missing ≠ [] → s.cmdIn ++ missing = encode i →
    step s = .next s

/-- Every step of the model answers a next state. That an illegal header and an error are no stop is R77 and
R200; that the wait for missing bytes is none is log 3, and that the fault of LENGTH_MISMATCH is reached by
no command is log 7 (both DEDUCED, the model's reading). -/
def Obligations.NoStepStopsTheEngine : Prop :=
  ∀ s : State, SafeOutcome (step s)

/-- R24 to R28, R35, R201, R205: every step keeps the invariant of the instance registers and of
LAST_ERR. -/
def Obligations.EveryStepKeepsTheInvariant : Prop :=
  ∀ s t : State, s.Inv → step s = .next t → t.Inv

/-- R36: the state after reset has the invariant. -/
def Obligations.ResetStateHasTheInvariant : Prop :=
  ∀ cfg : Config, (State.resetWith cfg).Inv

/-- R30: no step changes `COLUMN_ORDER`. -/
def Obligations.NoStepChangesColumnOrder : Prop :=
  ∀ s t : State, step s = .next t → t.cfg.columnOrder = s.cfg.columnOrder

/-- R63, R70 and R238, with log 2 and log 4 (the model's choices: the host may send every command ahead and
need read no response; a command is executed in one step and each byte of a response sent in one more):
commands sent one after another are executed in the order sent, each on the state its predecessor left, and
their responses go out whole, in the same order. -/
def Obligations.ChannelRunsCommandsInTheOrderSent : Prop :=
  ∀ (is : List Instr) (s : State) (rest : Bytes),
    s.resetPin = false → s.sending = [] → (∀ i ∈ is, i.wf = true) →
    s.cmdIn = is.flatMap encode ++ rest →
    ∃ t : State, execAll is { s with cmdIn := rest } = .next t ∧
      Sys2Proof.core.run (is.length + t.sending.length) s =
        .next { t with sending := [], respOut := s.respOut ++ t.sending }

/-- R81 and R238, with log 2 and log 4 (the model's choices: commands sent ahead, one step a command and one
a byte): after a reset of either build, a list of commands, illegal header words among them, is a run. It
has one response a command, of at least the four bytes of the response word; it ends when the last response
has been completely sent; and sending the commands' bytes on the channel brings the engine step by step to
the run's end, the responses standing on the response channel one after another. -/
def Obligations.RunAfterResetEndsWithEveryResponseSent : Prop :=
  ∀ (cfg : Config) (cs : List Cmd), (∀ c ∈ cs, c.wf = true) →
    ∃ r : Run, runFromReset cfg cs = .next r ∧
      r.responses.length = cs.length ∧ (∀ b ∈ r.responses, 4 ≤ b.length) ∧
      r.final.sending = [] ∧ r.final.cmdIn = [] ∧ r.final.respOut = r.responses.flatten ∧
      Sys2Proof.core.run (cs.length + r.responses.flatten.length)
          ((State.resetWith cfg).hostSend (cs.flatMap encodeCmd)) =
        .next r.final

/-! ## Responses, errors and frames, over all commands -/

/-- R70, R72, R75, R202: each command sends one response: on success with `FOUT(op)` frames of the lengths
R75 gives, on an error, one of those R202 lists for it, with none. -/
def Obligations.EachCommandSendsOneResponse : Prop :=
  ∀ (i : Instr) (s t : State), exec i s = .next t →
    ∃ r : Resp, t.sending = s.sending ++ r.serialize ∧
      ((r.code = 0x00 ∧ r.frames.length = i.header.framesOut ∧
          r.frames.map List.length =
            match i with
            | .encrypt m => [m.length]
            | .getctr => [8]
            | .getstat => [4]
            | .rdst => [64]
            | _ => []) ∨
        (r.frames = [] ∧ ∃ e ∈ possibleErrors i, r.code = e.code ∧ r.code ≠ 0x00))

/-- R203, R207: after an error of a command other than CONSTRUCT, LAST_ERR is its code and no other register
differs; a failed CONSTRUCT also clears VALID, KEY, NONCE, CTR and EXH, and changes nothing else. -/
def Obligations.AnErrorChangesOnlyLastErr : Prop :=
  ∀ (i : Instr) (s t : State), exec i s = .next t →
    (∃ frames, t.sending = s.sending ++ Resp.serialize ⟨0x00, frames⟩) ∨
    (∃ c : BitVec 8, c ≠ 0x00 ∧
      (((∀ k n, i ≠ .construct k n) ∧
          t = { s with lastErr := c, sending := s.sending ++ [c, 0, 0, 0] }) ∨
        (∃ k n, i = .construct k n ∧
          t = { s with
            valid := false
            key := Vector.replicate 32 0
            nonce := Vector.replicate 8 0
            ctr := 0
            exh := false
            lastErr := c
            sending := s.sending ++ [c, 0, 0, 0] })))

/-- R29: after a command other than GETSTAT, legal or not, LAST_ERR is the code of its response; GETSTAT
does not change it. -/
def Obligations.LastErrIsTheCodeOfTheLastCommandButGetstat : Prop :=
  ∀ (c : Cmd) (s t : State), execCmd c s = .next t →
    (c = .legal .getstat → t.lastErr = s.lastErr) ∧
    (c ≠ .legal .getstat → ∃ frames, t.sending = s.sending ++ Resp.serialize ⟨t.lastErr, frames⟩)

/-- R20, R23 to R29: no register is written by a command outside those listed for it; and no command writes
the build, the command channel, the response channel or the reset input. -/
def Obligations.OnlyTheListedCommandsWriteEachRegister : Prop :=
  ∀ (i : Instr) (s t : State), exec i s = .next t →
    (i.header ∉ [.construct] → t.key = s.key ∧ t.nonce = s.nonce ∧ t.valid = s.valid) ∧
    (i.header ∉ [.construct, .encrypt, .setctr] → t.ctr = s.ctr ∧ t.exh = s.exh) ∧
    (i.header ∈ [.construct, .setctr, .getctr, .getstat, .rdst] → t.x = s.x) ∧
    (∀ a b c d r, i = .qr a b c d → r ∉ [a, b, c, d] → t.reg r = s.reg r) ∧
    (∀ rd a b r, i = .add rd a b ∨ i = .xor rd a b → r ≠ rd → t.reg r = s.reg r) ∧
    (∀ rd a n r, i = .rotl rd a n → r ≠ rd → t.reg r = s.reg r) ∧
    (i = .getstat → t.lastErr = s.lastErr) ∧
    t.cfg = s.cfg ∧ t.cmdIn = s.cmdIn ∧ t.resetPin = s.resetPin ∧
    t.respOut = s.respOut ∧ s.sending <+: t.sending

/-- R35: CTR never decreases except by SETCTR, by CONSTRUCT, or by the wrap that sets EXH. -/
def Obligations.CtrDecreasesOnlyBySetctrConstructOrTheWrap : Prop :=
  ∀ (i : Instr) (s t : State), exec i s = .next t → t.ctr.toNat < s.ctr.toNat →
    (∃ v, i = .setctr v) ∨ (∃ k n, i = .construct k n) ∨
    (∃ m, i = .encrypt m ∧ t.ctr = 0 ∧ t.exh = true ∧ s.ctr.toNat + nblocks m = 2 ^ 64)

/-- R60: GETSTAT, GETCTR and RDST change no register but LAST_ERR (GETSTAT not even that), and repeated
give the same result; CONSTRUCT, SETCTR and LDST repeated give the same state. -/
def Obligations.ReadsHaveNoSideEffectAndLoadsAreIdempotent : Prop :=
  ∀ (i : Instr) (s t u : State), exec i s = .next t → exec i t = .next u →
    (i ∈ [.getstat, .getctr, .rdst] →
      t = { s with lastErr := t.lastErr, sending := t.sending } ∧
      ∃ r, t.sending = s.sending ++ r ∧ u.sending = t.sending ++ r) ∧
    (i = .getstat → t.lastErr = s.lastErr) ∧
    (i.header ∈ [.construct, .setctr, .ldst] → u = { t with sending := u.sending })

/-! ## Word functions and the ALU commands -/

/-- R100: the formula in unbounded naturals, and bit i of the result is bit (i − n) mod 32 of v. -/
def Obligations.RotlMovesEveryBit : Prop :=
  ∀ (v : Word) (n : Nat), n < 32 →
    (1 ≤ n → (rotl32 v n).toNat = ((v.toNat <<< n) ||| (v.toNat >>> (32 - n))) % 2 ^ 32) ∧
    rotl32 v 0 = v ∧
    ∀ i, i < 32 → (rotl32 v n).getLsbD i = v.getLsbD ((i + 32 - n) % 32)

/-- R101, R103: ADD completes from every state: RD takes the sum modulo 2^32 of the sources as they were,
LAST_ERR becomes 0x00, and nothing else changes. -/
def Obligations.AddWritesTheWrappingSum : Prop :=
  (HeaderWords 0x30 reservedR fun w h => ∃ rd rs1 rs2 : Reg, h = .add rd rs1 rs2 ∧
    rd.val = w.toNat / 2 ^ 8 % 2 ^ 4 ∧ rs1.val = w.toNat / 2 ^ 12 % 2 ^ 4 ∧
    rs2.val = w.toNat / 2 ^ 16 % 2 ^ 4) ∧
  ∀ (rd rs1 rs2 : Reg) (s : State),
    encodeHeader (.add rd rs1 rs2) &&& 0xFFF000FF = 0x00000030 ∧
    ∃ t, exec (.add rd rs1 rs2) s = .next t ∧
      (t.reg rd).toNat = ((s.reg rs1).toNat + (s.reg rs2).toNat) % 2 ^ 32 ∧
      (∀ r, r ≠ rd → t.reg r = s.reg r) ∧
      t = { s with x := t.x, lastErr := 0x00, sending := s.sending ++ [0, 0, 0, 0] }

/-- R102, R104: XOR completes from every state: bit by bit the exclusive-or of the sources as they were. -/
def Obligations.XorWritesTheExclusiveOr : Prop :=
  (HeaderWords 0x31 reservedR fun w h => ∃ rd rs1 rs2 : Reg, h = .xor rd rs1 rs2 ∧
    rd.val = w.toNat / 2 ^ 8 % 2 ^ 4 ∧ rs1.val = w.toNat / 2 ^ 12 % 2 ^ 4 ∧
    rs2.val = w.toNat / 2 ^ 16 % 2 ^ 4) ∧
  ∀ (rd rs1 rs2 : Reg) (s : State),
    encodeHeader (.xor rd rs1 rs2) &&& 0xFFF000FF = 0x00000031 ∧
    ∃ t, exec (.xor rd rs1 rs2) s = .next t ∧
      (∀ i, (t.reg rd).getLsbD i = ((s.reg rs1).getLsbD i ^^ (s.reg rs2).getLsbD i)) ∧
      (∀ r, r ≠ rd → t.reg r = s.reg r) ∧
      t = { s with x := t.x, lastErr := 0x00, sending := s.sending ++ [0, 0, 0, 0] }

/-- R105: ROTL completes from every state: bit i of RD is bit (i − SHAMT) mod 32 of the source. -/
def Obligations.RotlWritesTheRotatedWord : Prop :=
  (HeaderWords 0x32 reservedI fun w h => ∃ (rd rs1 : Reg) (n : Fin 32), h = .rotl rd rs1 n ∧
    rd.val = w.toNat / 2 ^ 8 % 2 ^ 4 ∧ rs1.val = w.toNat / 2 ^ 12 % 2 ^ 4 ∧ n.val = w.toNat / 2 ^ 20 % 2 ^ 5) ∧
  ∀ (rd rs1 : Reg) (n : Fin 32) (s : State),
    encodeHeader (.rotl rd rs1 n) &&& 0xFE0F00FF = 0x00000032 ∧
    ∃ t, exec (.rotl rd rs1 n) s = .next t ∧
      (∀ i, i < 32 → (t.reg rd).getLsbD i = (s.reg rs1).getLsbD ((i + 32 - n.val) % 32)) ∧
      (∀ r, r ≠ rd → t.reg r = s.reg r) ∧
      t = { s with x := t.x, lastErr := 0x00, sending := s.sending ++ [0, 0, 0, 0] }

/-- R80: the pseudo-instructions have the effects their grounds give: MOV copies, CLR clears, DECRYPT is
ENCRYPT, KEYSTREAM n returns the next n keystream bytes, RESETCTR sets CTR to 0. -/
def Obligations.PseudoInstructionsDoWhatTheirGroundsSay : Prop :=
  (∀ (rd rs : Reg) (s t : State), exec (.mov rd rs) s = .next t → t.reg rd = s.reg rs) ∧
  (∀ (rd : Reg) (s t : State), exec (.clr rd) s = .next t → t.reg rd = 0) ∧
  (∀ (m : Bytes) (s : State), exec (.decrypt m) s = exec (.encrypt m) s) ∧
  (∀ (n : Nat) (s : State), s.valid = true → (n + 63) / 64 ≤ s.blocksLeft →
    ∃ t, exec (.keystream n) s = .next t ∧
      t.sending = s.sending ++ ([0, 0, 0, 0] ++ (bytes64 (BitVec.ofNat 64 n) ++
        (keystream s.cfg.columnOrder s.key s.nonce s.ctr ((n + 63) / 64)).take n))) ∧
  (∀ s : State, s.valid = true → ∃ t, exec .resetctr s = .next t ∧ t.ctr = 0 ∧ t.exh = false)

/-- R107: twelve ALU commands with a scratch register t compute the quarter-round that QR computes, and
leave the last rotated sum in t. -/
def Obligations.TwelveAluCommandsComputeTheQuarterRound : Prop :=
  ∀ (a b c d t : Reg) (s : State), [a, b, c, d, t].Nodup →
    ∃ u v,
      execAll
        [.add t a d, .rotl t t 7, .xor b b t, .add t b a, .rotl t t 9, .xor c c t,
         .add t c b, .rotl t t 13, .xor d d t, .add t d c, .rotl t t 18, .xor a a t] s = .next u ∧
      exec (.qr a b c d) s = .next v ∧
      (∀ r, r ≠ t → u.reg r = v.reg r) ∧
      u.reg t = rotl32 (add32 (v.reg d) (v.reg c)) 18

/-! ## Quarter-round, rounds and core -/

/-- R121: QR is a bijection on 4-tuples of words, and R121's four lines are its inverse. -/
def Obligations.QuarterRoundHasTheStatedInverse : Prop :=
  ∀ a b c d a' b' c' d' : Word,
    quarterRound a b c d = (a', b', c', d') ↔ quarterRoundInv a' b' c' d' = (a, b, c, d)

/-- R121: the round functions and Core are bijections on matrices, under both column orders. -/
def Obligations.RoundsAndCoreAreBijections : Prop :=
  ∀ order : ColumnOrder,
    Function.Bijective (columnRound order) ∧ Function.Bijective rowRound ∧
    Function.Bijective (doubleRound order) ∧ Function.Bijective (coreRounds order)

/-- R121: HASH is not a bijection, because of the feed-forward. By R120, R123, R125, R128 and R129, under both
column orders, every matrix and the matrix with the top bit of each word flipped are different and have
the same image. -/
def Obligations.HashIsNotABijection : Prop :=
  ∀ (order : ColumnOrder) (x : StateMatrix),
    x.map (fun w => w ^^^ 0x80000000) ≠ x ∧
    hashMatrix order (x.map fun w => w ^^^ 0x80000000) = hashMatrix order x

/-- R126: within a round the four position sets are disjoint and cover all 16 words, and the round's
result is the same for any order of its four quarter-rounds, and the same if they run in parallel. -/
def Obligations.LanesOfARoundAreIndependent : Prop :=
  ∀ order : ColumnOrder,
    (∀ r : Reg, ∃! j, r ∈ (cidx order j).positions) ∧ (∀ j, (cidx order j).positions.Nodup) ∧
    (∀ r : Reg, ∃! i, r ∈ (ridx i).positions) ∧ (∀ i, (ridx i).positions.Nodup) ∧
    (∀ (taken : List (Fin 4)) (x : StateMatrix), taken.Perm [0, 1, 2, 3] →
      roundOver (cidx order) taken x = columnRound order x ∧ roundOver ridx taken x = rowRound x) ∧
    ∀ (x : StateMatrix) (j : Fin 4),
      ((columnRound order x)[(cidx order j).a], (columnRound order x)[(cidx order j).b],
          (columnRound order x)[(cidx order j).c], (columnRound order x)[(cidx order j).d]) =
        quarterRound x[(cidx order j).a] x[(cidx order j).b] x[(cidx order j).c] x[(cidx order j).d] ∧
      ((rowRound x)[(ridx j).a], (rowRound x)[(ridx j).b], (rowRound x)[(ridx j).c],
          (rowRound x)[(ridx j).d]) =
        quarterRound x[(ridx j).a] x[(ridx j).b] x[(ridx j).c] x[(ridx j).d]

/-- R132: QR on four distinct selectors completes: the four words take the quarter-round of the words as
they were, every other word stays. Selectors with a repeat raise OPERAND_ALIAS and change no word. -/
def Obligations.QrTransformsFourDistinctWordsOrRefuses : Prop :=
  (HeaderWords 0x20 reservedQ fun w h => ∃ a b c d : Reg, h = .qr a b c d ∧
    a.val = w.toNat / 2 ^ 8 % 2 ^ 4 ∧ b.val = w.toNat / 2 ^ 12 % 2 ^ 4 ∧
    c.val = w.toNat / 2 ^ 16 % 2 ^ 4 ∧ d.val = w.toNat / 2 ^ 20 % 2 ^ 4) ∧
  ∀ (a b c d : Reg) (s : State),
    encodeHeader (.qr a b c d) &&& 0xFF0000FF = 0x00000020 ∧
    ([a, b, c, d].Nodup →
      ∃ t, exec (.qr a b c d) s = .next t ∧
        (t.reg a, t.reg b, t.reg c, t.reg d) =
          quarterRound (s.reg a) (s.reg b) (s.reg c) (s.reg d) ∧
        (∀ r, r ∉ [a, b, c, d] → t.reg r = s.reg r) ∧
        t = { s with x := t.x, lastErr := 0x00, sending := s.sending ++ [0, 0, 0, 0] }) ∧
    (¬ [a, b, c, d].Nodup →
      exec (.qr a b c d) s =
        .next { s with lastErr := 0x08, sending := s.sending ++ [0x08, 0, 0, 0] })

/-- R122, R123, R133: CROUND completes from every state: each column's words, taken in the order of R122's
table for the built `COLUMN_ORDER`, take the quarter-round of the words as they were. -/
def Obligations.CroundAppliesTheQuarterRoundToEachColumn : Prop :=
  HeaderWords 0x21 reservedN (fun _ h => h = .cround) ∧
  encodeHeader .cround = 0x00000021 ∧
  ∀ s : State,
    ∃ t, exec .cround s = .next t ∧
      t = { s with x := t.x, lastErr := 0x00, sending := s.sending ++ [0, 0, 0, 0] } ∧
      ∀ l ∈ (match s.cfg.columnOrder with
        | .plain => [[0, 4, 8, 12], [1, 5, 9, 13], [2, 6, 10, 14], [3, 7, 11, 15]]
        | .diagonal => [[0, 4, 8, 12], [5, 9, 13, 1], [10, 14, 2, 6], [15, 3, 7, 11]] : List (List Reg)),
        ∀ a b c d, l = [a, b, c, d] →
          (t.reg a, t.reg b, t.reg c, t.reg d) =
            quarterRound (s.reg a) (s.reg b) (s.reg c) (s.reg d)

/-- R124, R125, R134: RROUND completes from every state, and each row's words, taken from the diagonal on,
take the quarter-round of the words as they were, under either `COLUMN_ORDER`. -/
def Obligations.RroundAppliesTheQuarterRoundToEachRow : Prop :=
  HeaderWords 0x22 reservedN (fun _ h => h = .rround) ∧
  encodeHeader .rround = 0x00000022 ∧
  ∀ s : State,
    ∃ t, exec .rround s = .next t ∧
      t = { s with x := t.x, lastErr := 0x00, sending := s.sending ++ [0, 0, 0, 0] } ∧
      ∀ l ∈ ([[0, 1, 2, 3], [5, 6, 7, 4], [10, 11, 8, 9], [15, 12, 13, 14]] : List (List Reg)),
        ∀ a b c d, l = [a, b, c, d] →
          (t.reg a, t.reg b, t.reg c, t.reg d) =
            quarterRound (s.reg a) (s.reg b) (s.reg c) (s.reg d)

/-- R127, R135: DROUND completes from every state with the matrix that CROUND followed by RROUND leaves. -/
def Obligations.DroundIsCroundThenRround : Prop :=
  HeaderWords 0x23 reservedN (fun _ h => h = .dround) ∧
  encodeHeader .dround = 0x00000023 ∧
  ∀ s : State,
    ∃ t u, exec .dround s = .next t ∧ execAll [.cround, .rround] s = .next u ∧
      t = { s with x := u.x, lastErr := 0x00, sending := s.sending ++ [0, 0, 0, 0] }

/-- R136: CORE completes from every state with the matrix that ten DROUNDs leave. -/
def Obligations.CoreIsTenDrounds : Prop :=
  HeaderWords 0x24 reservedN (fun _ h => h = .core) ∧
  encodeHeader .core = 0x00000024 ∧
  ∀ s : State,
    ∃ t u, exec .core s = .next t ∧ execAll (List.replicate 10 .dround) s = .next u ∧
      t = { s with x := u.x, lastErr := 0x00, sending := s.sending ++ [0, 0, 0, 0] }

/-- R129, R137: HASH completes from every state; each word is the word CORE leaves plus the word as it
was, modulo 2^32. KEY, NONCE and CTR are unchanged. -/
def Obligations.HashIsCorePlusTheInitialMatrix : Prop :=
  HeaderWords 0x25 reservedN (fun _ h => h = .hash) ∧
  encodeHeader .hash = 0x00000025 ∧
  ∀ s : State,
    ∃ t u, exec .hash s = .next t ∧ exec .core s = .next u ∧
      (∀ r, (t.reg r).toNat = ((u.reg r).toNat + (s.reg r).toNat) % 2 ^ 32) ∧
      t = { s with x := t.x, lastErr := 0x00, sending := s.sending ++ [0, 0, 0, 0] }

/-- R137, R163: loading the initial block, HASH and RDST returns the bytes of block expansion. -/
def Obligations.HashOfTheInitialBlockIsBlockExpansion : Prop :=
  ∀ (s : State) (key : Vector Byte 32) (nonce : Vector Byte 8) (c : BitVec 64),
    ∃ t, execAll [.ldst (initBlock key nonce c), .hash, .rdst] s = .next t ∧
      t.sending = s.sending ++ ([0, 0, 0, 0] ++ ([0, 0, 0, 0] ++ ([0, 0, 0, 0] ++
        ([64, 0, 0, 0, 0, 0, 0, 0] ++ keyBlock s.cfg.columnOrder key nonce c))))

/-- R129, R133, R134, R136, R137, R138: the all-zero matrix is a fixed point of QR, of every round, of
Core and of Hash. -/
def Obligations.ZeroMatrixIsAFixedPoint : Prop :=
  quarterRound 0 0 0 0 = (0, 0, 0, 0) ∧
  ∀ order : ColumnOrder,
    columnRound order (Vector.replicate 16 0) = Vector.replicate 16 0 ∧
    rowRound (Vector.replicate 16 0) = Vector.replicate 16 0 ∧
    coreRounds order (Vector.replicate 16 0) = Vector.replicate 16 0 ∧
    hashMatrix order (Vector.replicate 16 0) = Vector.replicate 16 0

/-! ## Loading and reading the matrix -/

/-- R130: LDST of exactly 64 bytes completes: word i is bytes 4i..4i+3, least significant first. Any other
length raises OPERAND_LENGTH and changes no word. Either way a step takes the whole frame off the
channel. -/
def Obligations.LdstLoadsSixtyFourBytesOrRefuses : Prop :=
  HeaderWords 0x10 reservedN (fun _ h => h = .ldst) ∧
  encodeHeader .ldst = 0x00000010 ∧
  ∀ (b : Bytes) (s : State),
    (b.length = 64 →
      ∃ t, exec (.ldst b) s = .next t ∧
        (∀ i : Reg, (t.reg i).toNat =
          (b.getD (4 * i.val) 0).toNat + (b.getD (4 * i.val + 1) 0).toNat * 2 ^ 8 +
          (b.getD (4 * i.val + 2) 0).toNat * 2 ^ 16 + (b.getD (4 * i.val + 3) 0).toNat * 2 ^ 24) ∧
        t = { s with x := t.x, lastErr := 0x00, sending := s.sending ++ [0, 0, 0, 0] }) ∧
    (b.length ≠ 64 →
      exec (.ldst b) s = .next { s with lastErr := 0x07, sending := s.sending ++ [0x07, 0, 0, 0] }) ∧
    ∀ rest, b.length < 2 ^ 64 → s.resetPin = false → s.sending = [] →
      s.cmdIn = encode (.ldst b) ++ rest →
      ∃ t, step s = .next t ∧ exec (.ldst b) { s with cmdIn := rest } = .next t ∧ t.cmdIn = rest

/-- R131: RDST completes from every state with one frame of 64 bytes, byte 4i + k of it bits 8k+7..8k of
word i, and changes no word. -/
def Obligations.RdstEmitsTheMatrix : Prop :=
  HeaderWords 0x11 reservedN (fun _ h => h = .rdst) ∧
  encodeHeader .rdst = 0x00000011 ∧
  ∀ s : State,
    ∃ b : Bytes, b.length = 64 ∧
      exec .rdst s = .next { s with
        lastErr := 0x00
        sending := s.sending ++ ([0, 0, 0, 0] ++ ([64, 0, 0, 0, 0, 0, 0, 0] ++ b)) } ∧
      ∀ (i : Reg) (k : Nat), k < 4 →
        (b.getD (4 * i.val + k) 0).toNat = (s.reg i).toNat / 2 ^ (8 * k) % 2 ^ 8

/-- R54: the two maps between 64 bytes and the matrix are inverse to each other. -/
def Obligations.MatrixAndSixtyFourBytesAreInverse : Prop :=
  (∀ m : StateMatrix, (bytesOfMatrix m).length = 64 ∧ matrixOfBytes (bytesOfMatrix m) = m) ∧
  (∀ b : Bytes, b.length = 64 → bytesOfMatrix (matrixOfBytes b) = b) ∧
  (∀ (b : Bytes) (i : Reg), (matrixOfBytes b)[i] =
    le32 (b.getD (4 * i.val) 0) (b.getD (4 * i.val + 1) 0) (b.getD (4 * i.val + 2) 0)
      (b.getD (4 * i.val + 3) 0)) ∧
  (∀ m : StateMatrix, bytesOfMatrix m = (List.ofFn fun i : Reg => bytes32 m[i]).flatten)

/-! ## Instance and stream commands -/

/-- R160, R161, R162: the words of the initial block: the four constants on the diagonal, the key halves,
the nonce, and the counter's low word at word 8 and high word at word 9. -/
def Obligations.InitialMatrixHasTheStatedWords : Prop :=
  ∀ (key : Vector Byte 32) (nonce : Vector Byte 8) (c : BitVec 64),
    (initBlock key nonce c).length = 64 ∧
    (matrixOfBytes (initBlock key nonce c)).toList =
      [0x61707865, wordAt key.toList 0, wordAt key.toList 1, wordAt key.toList 2,
       wordAt key.toList 3, 0x3320646e, wordAt nonce.toList 0, wordAt nonce.toList 1,
       BitVec.ofNat 32 c.toNat, BitVec.ofNat 32 (c.toNat / 2 ^ 32), 0x79622d32, wordAt key.toList 4,
       wordAt key.toList 5, wordAt key.toList 6, wordAt key.toList 7, 0x6b206574]

/-- R163, R164: for c + n ≤ 2^64 the keystream is n blocks of 64 bytes, the i-th at counter c + i, and
those counters are below 2^64 and pairwise different. -/
def Obligations.KeystreamIsTheBlocksAtDistinctCounters : Prop :=
  ∀ (order : ColumnOrder) (key : Vector Byte 32) (nonce : Vector Byte 8) (c : BitVec 64) (n : Nat),
    c.toNat + n ≤ 2 ^ 64 →
    (keystream order key nonce c n).length = 64 * n ∧
    ∀ i, i < n →
      ((keystream order key nonce c n).drop (64 * i)).take 64 =
        keyBlock order key nonce (BitVec.ofNat 64 (c.toNat + i)) ∧
      (BitVec.ofNat 64 (c.toNat + i)).toNat = c.toNat + i ∧
      ∀ j, j < n → BitVec.ofNat 64 (c.toNat + i) = BitVec.ofNat 64 (c.toNat + j) → i = j

/-- R167: CONSTRUCT with a 32-byte key and an 8-byte nonce completes and makes the instance. Otherwise the
old instance is destroyed and the key's length is reported before the nonce's. -/
def Obligations.ConstructMakesOrDestroysTheInstance : Prop :=
  HeaderWords 0x01 reservedN (fun _ h => h = .construct) ∧
  encodeHeader .construct = 0x00000001 ∧
  ∀ (k nn : Bytes) (s : State),
    (k.length = 32 → nn.length = 8 →
      ∃ t, exec (.construct k nn) s = .next t ∧ t.key.toList = k ∧ t.nonce.toList = nn ∧
        t = { s with
          key := t.key
          nonce := t.nonce
          ctr := 0
          exh := false
          valid := true
          lastErr := 0x00
          sending := s.sending ++ [0, 0, 0, 0] }) ∧
    (k.length ≠ 32 ∨ nn.length ≠ 8 →
      ∃ t, exec (.construct k nn) s = .next t ∧
        t.key.toList = zeros 32 ∧ t.nonce.toList = zeros 8 ∧
        t.lastErr = (if k.length ≠ 32 then 0x01 else 0x02) ∧
        t = { s with
          key := t.key
          nonce := t.nonce
          ctr := 0
          exh := false
          valid := false
          lastErr := t.lastErr
          sending := s.sending ++ [t.lastErr, 0, 0, 0] })

/-- R165, R166, R168: ENCRYPT with no instance raises NO_INSTANCE; with more blocks than remain it raises
KEYSTREAM_EXHAUSTED; otherwise it completes: byte k of the frame is byte k of the message XORed with byte
k mod 64 of the block at counter CTR + k / 64, CTR advances by the blocks used, the wrap sets EXH, and x
is zeroed. -/
def Obligations.EncryptXorsTheKeystreamOrRefuses : Prop :=
  HeaderWords 0x02 reservedN (fun _ h => h = .encrypt) ∧
  encodeHeader .encrypt = 0x00000002 ∧
  ∀ (m : Bytes) (s : State),
    (s.valid = false →
      exec (.encrypt m) s = .next { s with lastErr := 0x05, sending := s.sending ++ [0x05, 0, 0, 0] }) ∧
    (s.valid = true → (if s.exh then 0 else 2 ^ 64 - s.ctr.toNat) < (m.length + 63) / 64 →
      exec (.encrypt m) s = .next { s with lastErr := 0x04, sending := s.sending ++ [0x04, 0, 0, 0] }) ∧
    (s.valid = true → (m.length + 63) / 64 ≤ (if s.exh then 0 else 2 ^ 64 - s.ctr.toNat) →
      ∃ t out, exec (.encrypt m) s = .next t ∧
        out.length = m.length ∧
        (∀ k, k < m.length → out.getD k 0 = m.getD k 0 ^^^
          (keyBlock s.cfg.columnOrder s.key s.nonce
            (BitVec.ofNat 64 (s.ctr.toNat + k / 64))).getD (k % 64) 0) ∧
        (∀ r, t.reg r = 0) ∧
        (if s.ctr.toNat + (m.length + 63) / 64 = 2 ^ 64 then t.ctr = 0 ∧ t.exh = true
          else t.ctr.toNat = s.ctr.toNat + (m.length + 63) / 64 ∧ t.exh = s.exh) ∧
        t = { s with
          x := t.x
          ctr := t.ctr
          exh := t.exh
          lastErr := 0x00
          sending := s.sending ++
            ([0, 0, 0, 0] ++ (bytes64 (BitVec.ofNat 64 m.length) ++ out)) })

/-- R170, R204: SETCTR of exactly 8 bytes with an instance completes: CTR is the little-endian value and
EXH is cleared. Another length raises OPERAND_LENGTH first; no instance raises NO_INSTANCE. -/
def Obligations.SetctrSetsTheCounterOrRefuses : Prop :=
  HeaderWords 0x03 reservedN (fun _ h => h = .setctr) ∧
  encodeHeader .setctr = 0x00000003 ∧
  ∀ (v : Bytes) (s : State),
    (v.length ≠ 8 →
      exec (.setctr v) s = .next { s with lastErr := 0x07, sending := s.sending ++ [0x07, 0, 0, 0] }) ∧
    (v.length = 8 → s.valid = false →
      exec (.setctr v) s = .next { s with lastErr := 0x05, sending := s.sending ++ [0x05, 0, 0, 0] }) ∧
    (v.length = 8 → s.valid = true →
      ∃ t, exec (.setctr v) s = .next t ∧
        t.ctr.toNat = (v.getD 0 0).toNat + (v.getD 1 0).toNat * 2 ^ 8 + (v.getD 2 0).toNat * 2 ^ 16 +
          (v.getD 3 0).toNat * 2 ^ 24 + (v.getD 4 0).toNat * 2 ^ 32 + (v.getD 5 0).toNat * 2 ^ 40 +
          (v.getD 6 0).toNat * 2 ^ 48 + (v.getD 7 0).toNat * 2 ^ 56 ∧
        t = { s with
          ctr := t.ctr
          exh := false
          lastErr := 0x00
          sending := s.sending ++ [0, 0, 0, 0] })

/-- R171: GETCTR with an instance completes with the eight bytes of CTR, least significant first; without
one it raises NO_INSTANCE. -/
def Obligations.GetctrEmitsTheCounterOrRefuses : Prop :=
  HeaderWords 0x04 reservedN (fun _ h => h = .getctr) ∧
  encodeHeader .getctr = 0x00000004 ∧
  ∀ s : State,
    (s.valid = false →
      exec .getctr s = .next { s with lastErr := 0x05, sending := s.sending ++ [0x05, 0, 0, 0] }) ∧
    (s.valid = true →
      ∃ b : Bytes, b.length = 8 ∧
        (∀ k, k < 8 → (b.getD k 0).toNat = s.ctr.toNat / 2 ^ (8 * k) % 2 ^ 8) ∧
        exec .getctr s = .next { s with
          lastErr := 0x00
          sending := s.sending ++ ([0, 0, 0, 0] ++ ([8, 0, 0, 0, 0, 0, 0, 0] ++ b)) })

/-- R30, R172: GETSTAT completes from every state: VALID in bit 0, EXH in bit 1, LAST_ERR in bits 15:8 and
every other bit 0; no register is written. -/
def Obligations.GetstatEmitsTheStatusWord : Prop :=
  HeaderWords 0x05 reservedN (fun _ h => h = .getstat) ∧
  encodeHeader .getstat = 0x00000005 ∧
  ∀ s : State,
    exec .getstat s = .next { s with
      sending := s.sending ++ ([0, 0, 0, 0] ++ ([4, 0, 0, 0, 0, 0, 0, 0] ++
        [(if s.valid then 1 else 0) + (if s.exh then 2 else 0), s.lastErr, 0, 0])) }

/-- R169: if ENCRYPT m at counter c0 with EXH = 0 returns c, then SETCTR c0 followed by DECRYPT c returns m,
from any later state with the same KEY and NONCE. -/
def Obligations.DecryptionRecoversTheMessage : Prop :=
  ∀ (m : Bytes) (s u : State),
    s.valid = true → s.exh = false → (m.length + 63) / 64 ≤ 2 ^ 64 - s.ctr.toNat →
    u.valid = true → u.cfg = s.cfg → u.key = s.key → u.nonce = s.nonce →
    ∃ t c v,
      exec (.encrypt m) s = .next t ∧ c.length = m.length ∧
      t.sending = s.sending ++ ([0, 0, 0, 0] ++ (bytes64 (BitVec.ofNat 64 m.length) ++ c)) ∧
      execAll [.setctr (bytes64 s.ctr), .decrypt c] u = .next v ∧
      v.sending = u.sending ++ ([0, 0, 0, 0] ++
        ([0, 0, 0, 0] ++ (bytes64 (BitVec.ofNat 64 m.length) ++ m)))

/-- R173: two engines with equal KEY, NONCE, CTR, EXH and VALID, built alike, give equal ENCRYPT results,
whatever else they hold. -/
def Obligations.EncryptDependsOnTheInstanceAlone : Prop :=
  ∀ (m : Bytes) (s s' t t' : State),
    s'.cfg = s.cfg → s'.key = s.key → s'.nonce = s.nonce → s'.ctr = s.ctr → s'.exh = s.exh →
    s'.valid = s.valid →
    exec (.encrypt m) s = .next t → exec (.encrypt m) s' = .next t' →
    ∃ r, t.sending = s.sending ++ r ∧ t'.sending = s'.sending ++ r ∧
      t'.ctr = t.ctr ∧ t'.exh = t.exh ∧ t'.lastErr = t.lastErr

/-- R235: a message sent in two chunks, the first a multiple of 64 bytes long, gets the bytes that one
ENCRYPT of the whole gets, and leaves the same counter. -/
def Obligations.WholeBlockChunksEncryptLikeTheWhole : Prop :=
  ∀ (m₁ m₂ : Bytes) (s : State),
    s.valid = true → s.exh = false → m₁.length % 64 = 0 →
    ((m₁ ++ m₂).length + 63) / 64 ≤ 2 ^ 64 - s.ctr.toNat →
    ∃ t u c₁ c₂, c₁.length = m₁.length ∧ c₂.length = m₂.length ∧
      exec (.encrypt (m₁ ++ m₂)) s = .next t ∧ execAll [.encrypt m₁, .encrypt m₂] s = .next u ∧
      t.sending = s.sending ++ ([0, 0, 0, 0] ++
        (bytes64 (BitVec.ofNat 64 (m₁ ++ m₂).length) ++ (c₁ ++ c₂))) ∧
      u.sending = s.sending ++
        (([0, 0, 0, 0] ++ (bytes64 (BitVec.ofNat 64 m₁.length) ++ c₁)) ++
          ([0, 0, 0, 0] ++ (bytes64 (BitVec.ofNat 64 m₂.length) ++ c₂))) ∧
      u.ctr = t.ctr ∧ u.exh = t.exh

/-- R210: two engines that differ in KEY and NONCE alone answer every list of commands without ENCRYPT
alike, and differ in no register but KEY and NONCE afterwards. -/
def Obligations.NoCommandButEncryptRevealsTheKey : Prop :=
  ∀ (is : List Instr) (s t : State) (key : Vector Byte 32) (nonce : Vector Byte 8),
    (∀ m, Instr.encrypt m ∉ is) → execAll is s = .next t →
    ∃ t', execAll is { s with key := key, nonce := nonce } = .next t' ∧
      t' = { t with key := t'.key, nonce := t'.nonce }

/-! ## Assembler -/

/-- R79, R80: lines in the syntax of R79, pseudo-instructions among them, assemble to the commands the
operand table and the expansions give; a register, amount or counter out of range is refused. -/
def Obligations.AssemblerLinesOfTheSpec : Prop :=
  assembleLine "QR x0, x4, x8, x12   ; column 0".toList = .ok (some (.qr 0 4 8 12)) ∧
  assembleLine "add x3, s01, s02".toList = .ok (some (.add 3 1 2)) ∧
  assembleLine "ROTL x1, x2, 0x1f".toList = .ok (some (.rotl 1 2 31)) ∧
  assembleLine "MOV x1, x2".toList = .ok (some (.rotl 1 2 0)) ∧
  assembleLine "CLR x7".toList = .ok (some (.xor 7 7 7)) ∧
  assembleLine "KEYSTREAM 3".toList = .ok (some (.encrypt [0, 0, 0])) ∧
  assembleLine "RESETCTR".toList = .ok (some (.setctr [0, 0, 0, 0, 0, 0, 0, 0])) ∧
  assembleLine "SETCTR 0x0000000100000002".toList = .ok (some (.setctr [2, 0, 0, 0, 1, 0, 0, 0])) ∧
  assembleLine "ADD x16, x1, x2".toList = .error .registerRange ∧
  assembleLine "ROTL x1, x2, 32".toList = .error .amountRange ∧
  assembleLine "SETCTR 18446744073709551616".toList = .error .counterRange
end

