-- ==== Sys2Proof/Laws/Bytes.lean ====
section
/-! SUPPORT. Lengths and single conversions of the byte-order functions (20_memory.md R52 to R55). -/

namespace Sys2Proof.Machine

@[simp] theorem bytes32_length (w : Word) : (bytes32 w).length = 4 := rfl

@[simp] theorem bytes64_length (c : BitVec 64) : (bytes64 c).length = 8 := rfl

@[simp] theorem zeros_length (n : Nat) : (zeros n).length = n := by simp [zeros]

@[simp] theorem frameBytes_length (f : Bytes) : (frameBytes f).length = 8 + f.length := by
  simp [frameBytes]

/-- A matrix is 64 bytes (R54). -/
@[simp] theorem bytesOfMatrix_length (m : StateMatrix) : (bytesOfMatrix m).length = 64 := by
  simp [bytesOfMatrix, List.length_flatMap]

/-- Bits above a number's own width add to it. -/
theorem or_shiftLeft_of_lt {a k : Nat} (b : Nat) (h : a < 2 ^ k) : a ||| (b <<< k) = a + b * 2 ^ k := by
  rw [Nat.shiftLeft_eq, Nat.mul_comm b, Nat.lor_comm, ← Nat.two_pow_add_eq_or_of_lt h, Nat.add_comm]

/-- `le32` as a number: each byte at its weight (R11). -/
theorem le32_toNat (b0 b1 b2 b3 : Byte) :
    (le32 b0 b1 b2 b3).toNat =
      b0.toNat + b1.toNat * 2 ^ 8 + b2.toNat * 2 ^ 16 + b3.toNat * 2 ^ 24 := by
  have l0 := b0.isLt
  have l1 := b1.isLt
  have l2 := b2.isLt
  have l3 := b3.isLt
  have shift : ∀ (b : Byte) (k : Nat), k ≤ 24 → (b.setWidth 32 <<< k).toNat = b.toNat <<< k := by
    intro b k hk
    have hb := b.isLt
    have hp : 2 ^ k ≤ 2 ^ 24 := Nat.pow_le_pow_right (by decide) hk
    have hm : b.toNat * 2 ^ k < 2 ^ 32 :=
      Nat.lt_of_lt_of_le (Nat.mul_lt_mul_of_lt_of_le hb hp (by positivity)) (by decide)
    have hw : (b.setWidth 32).toNat = b.toNat := by
      rw [BitVec.toNat_setWidth, Nat.mod_eq_of_lt (by omega)]
    rw [BitVec.toNat_shiftLeft, hw, Nat.shiftLeft_eq, Nat.mod_eq_of_lt hm]
  have h0 : (b0.setWidth 32).toNat = b0.toNat := by
    rw [BitVec.toNat_setWidth, Nat.mod_eq_of_lt (by omega)]
  have h1 := or_shiftLeft_of_lt (k := 8) b1.toNat l0
  have h2 := or_shiftLeft_of_lt (a := b0.toNat + b1.toNat * 2 ^ 8) (k := 16) b2.toNat (by omega)
  have h3 := or_shiftLeft_of_lt (a := b0.toNat + b1.toNat * 2 ^ 8 + b2.toNat * 2 ^ 16) (k := 24)
    b3.toNat (by omega)
  unfold le32
  rw [BitVec.toNat_or, BitVec.toNat_or, BitVec.toNat_or, shift b1 8 (by decide), shift b2 16 (by decide),
    shift b3 24 (by decide), h0, h1, h2, h3]

/-- The bytes of a word as numbers (R53). -/
theorem extract_toNat (w : Word) (k : Nat) : (w.extractLsb' k 8).toNat = w.toNat / 2 ^ k % 2 ^ 8 := by
  rw [BitVec.extractLsb'_toNat, Nat.shiftRight_eq_div_pow]

/-- Word to bytes and back (R52, R53). -/
theorem le32_bytes32 (w : Word) :
    le32 (w.extractLsb' 0 8) (w.extractLsb' 8 8) (w.extractLsb' 16 8) (w.extractLsb' 24 8) = w := by
  apply BitVec.eq_of_toNat_eq
  have := w.isLt
  rw [le32_toNat]
  simp only [extract_toNat]
  omega

/-- Bytes to word and back (R52, R53). -/
theorem bytes32_le32 (b0 b1 b2 b3 : Byte) : bytes32 (le32 b0 b1 b2 b3) = [b0, b1, b2, b3] := by
  have l0 := b0.isLt
  have l1 := b1.isLt
  have l2 := b2.isLt
  have l3 := b3.isLt
  unfold bytes32
  simp only [List.cons.injEq, and_true]
  refine ⟨?_, ?_, ?_, ?_⟩ <;> apply BitVec.eq_of_toNat_eq <;> rw [extract_toNat, le32_toNat] <;> omega

end Sys2Proof.Machine
end

