-- ==== Sys2Proof/Laws/Decode.lean ====
section
/-! SUPPORT. The decoder's parts undo the encoder's parts: words, frames and header fields
(30_encoding.md R70 to R76). -/

namespace Sys2Proof

open Sys2Proof.Machine

/-! ## Words and frames -/

/-- The header word sent is the header word taken (R56, R70). -/
theorem takeWord_bytes32 (w : Word) (rest : Bytes) : takeWord (bytes32 w ++ rest) = some (w, rest) := by
  simp [bytes32, takeWord, le32_bytes32]

/-- The header word taken is the header word sent (R56, R70). -/
theorem eq_of_takeWord {bs rest : Bytes} {w : Word} (h : takeWord bs = some (w, rest)) :
    bs = bytes32 w ++ rest := by
  match bs, h with
  | b0 :: b1 :: b2 :: b3 :: tl, h =>
    simp only [takeWord, Option.some.injEq, Prod.mk.injEq] at h
    obtain ⟨rfl, rfl⟩ := h
    rw [bytes32_le32]
    rfl

/-- `le64` as a number: the low word, then the high word (R55). -/
theorem le64_toNat (b0 b1 b2 b3 b4 b5 b6 b7 : Byte) :
    (le64 b0 b1 b2 b3 b4 b5 b6 b7).toNat =
      (le32 b0 b1 b2 b3).toNat + (le32 b4 b5 b6 b7).toNat * 2 ^ 32 := by
  have h1 := (le32 b0 b1 b2 b3).isLt
  have h2 := (le32 b4 b5 b6 b7).isLt
  unfold le64
  rw [BitVec.toNat_or, BitVec.toNat_shiftLeft, BitVec.toNat_setWidth, BitVec.toNat_setWidth,
    Nat.mod_eq_of_lt (by omega), Nat.mod_eq_of_lt (a := (le32 b4 b5 b6 b7).toNat) (by omega),
    Nat.mod_eq_of_lt (by rw [Nat.shiftLeft_eq]; omega), or_shiftLeft_of_lt _ h1]

/-- A 64-bit number sent and read back (R55, R56). -/
theorem le64_of_bytes64 {c : BitVec 64} {b0 b1 b2 b3 b4 b5 b6 b7 : Byte}
    (h : bytes64 c = [b0, b1, b2, b3, b4, b5, b6, b7]) : le64 b0 b1 b2 b3 b4 b5 b6 b7 = c := by
  simp only [bytes64, bytes32, List.cons_append, List.nil_append, List.cons.injEq, and_true] at h
  obtain ⟨rfl, rfl, rfl, rfl, rfl, rfl, rfl, rfl⟩ := h
  apply BitVec.eq_of_toNat_eq
  rw [le64_toNat, le32_bytes32, le32_bytes32, BitVec.extractLsb'_toNat, BitVec.extractLsb'_toNat,
    Nat.shiftRight_eq_div_pow, Nat.shiftRight_eq_div_pow]
  have := c.isLt
  omega

/-- Eight bytes read as a 64-bit number and sent again (R55, R56). -/
theorem bytes64_le64 (b0 b1 b2 b3 b4 b5 b6 b7 : Byte) :
    bytes64 (le64 b0 b1 b2 b3 b4 b5 b6 b7) = [b0, b1, b2, b3, b4, b5, b6, b7] := by
  have h1 := (le32 b0 b1 b2 b3).isLt
  have h2 := (le32 b4 b5 b6 b7).isLt
  have lo : (le64 b0 b1 b2 b3 b4 b5 b6 b7).extractLsb' 0 32 = le32 b0 b1 b2 b3 := by
    apply BitVec.eq_of_toNat_eq
    rw [BitVec.extractLsb'_toNat, le64_toNat, Nat.shiftRight_eq_div_pow]
    omega
  have hi : (le64 b0 b1 b2 b3 b4 b5 b6 b7).extractLsb' 32 32 = le32 b4 b5 b6 b7 := by
    apply BitVec.eq_of_toNat_eq
    rw [BitVec.extractLsb'_toNat, le64_toNat, Nat.shiftRight_eq_div_pow]
    omega
  rw [bytes64, lo, hi, bytes32_le32, bytes32_le32]
  rfl

/-- A frame sent is the frame taken (R71). -/
theorem takeFrame_frameBytes {f : Bytes} (rest : Bytes) (h : f.length ≤ 2 ^ 64 - 1) :
    takeFrame (frameBytes f ++ rest) = some (f, rest) := by
  have hn : (BitVec.ofNat 64 f.length).toNat = f.length := by
    rw [BitVec.toNat_ofNat]
    omega
  have hb := le64_of_bytes64 (c := BitVec.ofNat 64 f.length) rfl
  simp only [frameBytes, bytes64, bytes32, List.cons_append, List.nil_append, takeFrame, hb, hn,
    List.length_append]
  simp

/-- A frame taken is the frame sent, and its length fits the length field (R71). -/
theorem eq_of_takeFrame {bs f rest : Bytes} (h : takeFrame bs = some (f, rest)) :
    bs = frameBytes f ++ rest ∧ f.length ≤ 2 ^ 64 - 1 := by
  match bs, h with
  | b0 :: b1 :: b2 :: b3 :: b4 :: b5 :: b6 :: b7 :: tl, h =>
    simp only [takeFrame] at h
    split_ifs at h with hle
    simp only [Option.some.injEq, Prod.mk.injEq] at h
    obtain ⟨rfl, rfl⟩ := h
    have hlt := (le64 b0 b1 b2 b3 b4 b5 b6 b7).isLt
    have hlen : (tl.take (le64 b0 b1 b2 b3 b4 b5 b6 b7).toNat).length =
        (le64 b0 b1 b2 b3 b4 b5 b6 b7).toNat := by
      rw [List.length_take]
      omega
    refine ⟨?_, by omega⟩
    rw [frameBytes, hlen, BitVec.ofNat_toNat, BitVec.setWidth_eq, bytes64_le64]
    simp

/-! ## Header fields -/

/-- A register field as a number (R74). -/
theorem regField_val (w : Word) (lo : Nat) : (regField w lo).val = w.toNat / 2 ^ lo % 16 := by
  show (w.extractLsb' lo 4).toNat = _
  rw [BitVec.extractLsb'_toNat, Nat.shiftRight_eq_div_pow]

/-- The rotate amount as a number (R74). -/
theorem shamtField_val (w : Word) : (shamtField w).val = w.toNat / 2 ^ 20 % 32 := by
  show (w.extractLsb' 20 5).toNat = _
  rw [BitVec.extractLsb'_toNat, Nat.shiftRight_eq_div_pow]

/-- The opcode as a number (R73). -/
theorem opField_toNat (w : Word) : (opField w).toNat = w.toNat % 256 := by
  rw [opField, BitVec.extractLsb'_toNat, Nat.shiftRight_zero]

/-- A field is zero when its number is. -/
theorem extract_eq_zero_iff (w : Word) (lo len : Nat) :
    w.extractLsb' lo len = 0 ↔ w.toNat / 2 ^ lo % 2 ^ len = 0 := by
  rw [← BitVec.toNat_inj, BitVec.extractLsb'_toNat, Nat.shiftRight_eq_div_pow]
  simp

theorem reservedZeroN_iff (w : Word) : reservedZeroN w = true ↔ w.toNat / 2 ^ 8 = 0 := by
  have := w.isLt
  rw [reservedZeroN, beq_iff_eq, extract_eq_zero_iff]
  omega

theorem reservedZeroQ_iff (w : Word) : reservedZeroQ w = true ↔ w.toNat / 2 ^ 24 = 0 := by
  have := w.isLt
  rw [reservedZeroQ, beq_iff_eq, extract_eq_zero_iff]
  omega

theorem reservedZeroR_iff (w : Word) : reservedZeroR w = true ↔ w.toNat / 2 ^ 20 = 0 := by
  have := w.isLt
  rw [reservedZeroR, beq_iff_eq, extract_eq_zero_iff]
  omega

theorem reservedZeroI_iff (w : Word) :
    reservedZeroI w = true ↔ w.toNat / 2 ^ 25 = 0 ∧ w.toNat / 2 ^ 16 % 2 ^ 4 = 0 := by
  have := w.isLt
  rw [reservedZeroI, Bool.and_eq_true, beq_iff_eq, beq_iff_eq, extract_eq_zero_iff, extract_eq_zero_iff]
  omega

/-- A header word as a number: every field at its place (R73). -/
theorem encodeHeader_toNat (h : Header) : (encodeHeader h).toNat = h.opcode + h.fields := by
  rw [encodeHeader, BitVec.toNat_ofNat, Nat.mod_eq_of_lt]
  cases h <;> simp only [Header.opcode, Header.fields] <;> omega

end Sys2Proof
end

