-- ==== Sys2Proof/Laws/State.lean ====
section
/-! SUPPORT. What each state update does to each field: one lemma a field and update, true by rfl. -/

namespace Sys2Proof.Machine

variable (s : State)

@[simp] theorem State.setReg_cfg (r : Reg) (v : Word) : (s.setReg r v).cfg = s.cfg := rfl
@[simp] theorem State.setReg_x (r : Reg) (v : Word) : (s.setReg r v).x = s.x.set r v := rfl
@[simp] theorem State.setReg_key (r : Reg) (v : Word) : (s.setReg r v).key = s.key := rfl
@[simp] theorem State.setReg_nonce (r : Reg) (v : Word) : (s.setReg r v).nonce = s.nonce := rfl
@[simp] theorem State.setReg_ctr (r : Reg) (v : Word) : (s.setReg r v).ctr = s.ctr := rfl
@[simp] theorem State.setReg_valid (r : Reg) (v : Word) : (s.setReg r v).valid = s.valid := rfl
@[simp] theorem State.setReg_exh (r : Reg) (v : Word) : (s.setReg r v).exh = s.exh := rfl
@[simp] theorem State.setReg_lastErr (r : Reg) (v : Word) :
    (s.setReg r v).lastErr = s.lastErr := rfl
@[simp] theorem State.setReg_cmdIn (r : Reg) (v : Word) : (s.setReg r v).cmdIn = s.cmdIn := rfl
@[simp] theorem State.setReg_sending (r : Reg) (v : Word) :
    (s.setReg r v).sending = s.sending := rfl
@[simp] theorem State.setReg_respOut (r : Reg) (v : Word) :
    (s.setReg r v).respOut = s.respOut := rfl
@[simp] theorem State.setReg_resetPin (r : Reg) (v : Word) :
    (s.setReg r v).resetPin = s.resetPin := rfl

@[simp] theorem State.setX_cfg (m : StateMatrix) : (s.setX m).cfg = s.cfg := rfl
@[simp] theorem State.setX_x (m : StateMatrix) : (s.setX m).x = m := rfl
@[simp] theorem State.setX_key (m : StateMatrix) : (s.setX m).key = s.key := rfl
@[simp] theorem State.setX_nonce (m : StateMatrix) : (s.setX m).nonce = s.nonce := rfl
@[simp] theorem State.setX_ctr (m : StateMatrix) : (s.setX m).ctr = s.ctr := rfl
@[simp] theorem State.setX_valid (m : StateMatrix) : (s.setX m).valid = s.valid := rfl
@[simp] theorem State.setX_exh (m : StateMatrix) : (s.setX m).exh = s.exh := rfl
@[simp] theorem State.setX_lastErr (m : StateMatrix) : (s.setX m).lastErr = s.lastErr := rfl
@[simp] theorem State.setX_cmdIn (m : StateMatrix) : (s.setX m).cmdIn = s.cmdIn := rfl
@[simp] theorem State.setX_sending (m : StateMatrix) : (s.setX m).sending = s.sending := rfl
@[simp] theorem State.setX_respOut (m : StateMatrix) : (s.setX m).respOut = s.respOut := rfl
@[simp] theorem State.setX_resetPin (m : StateMatrix) : (s.setX m).resetPin = s.resetPin := rfl

@[simp] theorem State.setLastErr_cfg (c : BitVec 8) : (s.setLastErr c).cfg = s.cfg := rfl
@[simp] theorem State.setLastErr_x (c : BitVec 8) : (s.setLastErr c).x = s.x := rfl
@[simp] theorem State.setLastErr_key (c : BitVec 8) : (s.setLastErr c).key = s.key := rfl
@[simp] theorem State.setLastErr_nonce (c : BitVec 8) : (s.setLastErr c).nonce = s.nonce := rfl
@[simp] theorem State.setLastErr_ctr (c : BitVec 8) : (s.setLastErr c).ctr = s.ctr := rfl
@[simp] theorem State.setLastErr_valid (c : BitVec 8) : (s.setLastErr c).valid = s.valid := rfl
@[simp] theorem State.setLastErr_exh (c : BitVec 8) : (s.setLastErr c).exh = s.exh := rfl
@[simp] theorem State.setLastErr_lastErr (c : BitVec 8) : (s.setLastErr c).lastErr = c := rfl
@[simp] theorem State.setLastErr_cmdIn (c : BitVec 8) : (s.setLastErr c).cmdIn = s.cmdIn := rfl
@[simp] theorem State.setLastErr_sending (c : BitVec 8) :
    (s.setLastErr c).sending = s.sending := rfl
@[simp] theorem State.setLastErr_respOut (c : BitVec 8) :
    (s.setLastErr c).respOut = s.respOut := rfl
@[simp] theorem State.setLastErr_resetPin (c : BitVec 8) :
    (s.setLastErr c).resetPin = s.resetPin := rfl

@[simp] theorem State.send_cfg (r : Resp) : (s.send r).cfg = s.cfg := rfl
@[simp] theorem State.send_x (r : Resp) : (s.send r).x = s.x := rfl
@[simp] theorem State.send_key (r : Resp) : (s.send r).key = s.key := rfl
@[simp] theorem State.send_nonce (r : Resp) : (s.send r).nonce = s.nonce := rfl
@[simp] theorem State.send_ctr (r : Resp) : (s.send r).ctr = s.ctr := rfl
@[simp] theorem State.send_valid (r : Resp) : (s.send r).valid = s.valid := rfl
@[simp] theorem State.send_exh (r : Resp) : (s.send r).exh = s.exh := rfl
@[simp] theorem State.send_lastErr (r : Resp) : (s.send r).lastErr = s.lastErr := rfl
@[simp] theorem State.send_cmdIn (r : Resp) : (s.send r).cmdIn = s.cmdIn := rfl
@[simp] theorem State.send_sending (r : Resp) : (s.send r).sending = s.sending ++ r.serialize := rfl
@[simp] theorem State.send_respOut (r : Resp) : (s.send r).respOut = s.respOut := rfl
@[simp] theorem State.send_resetPin (r : Resp) : (s.send r).resetPin = s.resetPin := rfl

@[simp] theorem State.sendByte_cfg (b : Byte) (bs : Bytes) : (s.sendByte b bs).cfg = s.cfg := rfl
@[simp] theorem State.sendByte_x (b : Byte) (bs : Bytes) : (s.sendByte b bs).x = s.x := rfl
@[simp] theorem State.sendByte_key (b : Byte) (bs : Bytes) : (s.sendByte b bs).key = s.key := rfl
@[simp] theorem State.sendByte_nonce (b : Byte) (bs : Bytes) : (s.sendByte b bs).nonce = s.nonce := rfl
@[simp] theorem State.sendByte_ctr (b : Byte) (bs : Bytes) : (s.sendByte b bs).ctr = s.ctr := rfl
@[simp] theorem State.sendByte_valid (b : Byte) (bs : Bytes) : (s.sendByte b bs).valid = s.valid := rfl
@[simp] theorem State.sendByte_exh (b : Byte) (bs : Bytes) : (s.sendByte b bs).exh = s.exh := rfl
@[simp] theorem State.sendByte_lastErr (b : Byte) (bs : Bytes) : (s.sendByte b bs).lastErr = s.lastErr := rfl
@[simp] theorem State.sendByte_cmdIn (b : Byte) (bs : Bytes) : (s.sendByte b bs).cmdIn = s.cmdIn := rfl
@[simp] theorem State.sendByte_resetPin (b : Byte) (bs : Bytes) : (s.sendByte b bs).resetPin = s.resetPin := rfl
@[simp] theorem State.sendByte_sending (b : Byte) (bs : Bytes) : (s.sendByte b bs).sending = bs := rfl
@[simp] theorem State.sendByte_respOut (b : Byte) (bs : Bytes) :
    (s.sendByte b bs).respOut = s.respOut ++ [b] := rfl

@[simp] theorem State.sendAll_cfg : s.sendAll.cfg = s.cfg := rfl
@[simp] theorem State.sendAll_x : s.sendAll.x = s.x := rfl
@[simp] theorem State.sendAll_key : s.sendAll.key = s.key := rfl
@[simp] theorem State.sendAll_nonce : s.sendAll.nonce = s.nonce := rfl
@[simp] theorem State.sendAll_ctr : s.sendAll.ctr = s.ctr := rfl
@[simp] theorem State.sendAll_valid : s.sendAll.valid = s.valid := rfl
@[simp] theorem State.sendAll_exh : s.sendAll.exh = s.exh := rfl
@[simp] theorem State.sendAll_lastErr : s.sendAll.lastErr = s.lastErr := rfl
@[simp] theorem State.sendAll_cmdIn : s.sendAll.cmdIn = s.cmdIn := rfl
@[simp] theorem State.sendAll_resetPin : s.sendAll.resetPin = s.resetPin := rfl
@[simp] theorem State.sendAll_sending : s.sendAll.sending = [] := rfl
@[simp] theorem State.sendAll_respOut : s.sendAll.respOut = s.respOut ++ s.sending := rfl
@[simp] theorem State.sendAll_registers : s.sendAll.registers = s.registers := rfl

@[simp] theorem State.consume_cfg (rest : Bytes) : (s.consume rest).cfg = s.cfg := rfl
@[simp] theorem State.consume_x (rest : Bytes) : (s.consume rest).x = s.x := rfl
@[simp] theorem State.consume_key (rest : Bytes) : (s.consume rest).key = s.key := rfl
@[simp] theorem State.consume_nonce (rest : Bytes) : (s.consume rest).nonce = s.nonce := rfl
@[simp] theorem State.consume_ctr (rest : Bytes) : (s.consume rest).ctr = s.ctr := rfl
@[simp] theorem State.consume_valid (rest : Bytes) : (s.consume rest).valid = s.valid := rfl
@[simp] theorem State.consume_exh (rest : Bytes) : (s.consume rest).exh = s.exh := rfl
@[simp] theorem State.consume_lastErr (rest : Bytes) : (s.consume rest).lastErr = s.lastErr := rfl
@[simp] theorem State.consume_cmdIn (rest : Bytes) : (s.consume rest).cmdIn = rest := rfl
@[simp] theorem State.consume_sending (rest : Bytes) : (s.consume rest).sending = s.sending := rfl
@[simp] theorem State.consume_respOut (rest : Bytes) : (s.consume rest).respOut = s.respOut := rfl
@[simp] theorem State.consume_resetPin (rest : Bytes) :
    (s.consume rest).resetPin = s.resetPin := rfl

@[simp] theorem State.makeInstance_cfg (k : Vector Byte 32) (n : Vector Byte 8) :
    (s.makeInstance k n).cfg = s.cfg := rfl
@[simp] theorem State.makeInstance_x (k : Vector Byte 32) (n : Vector Byte 8) :
    (s.makeInstance k n).x = s.x := rfl
@[simp] theorem State.makeInstance_key (k : Vector Byte 32) (n : Vector Byte 8) :
    (s.makeInstance k n).key = k := rfl
@[simp] theorem State.makeInstance_nonce (k : Vector Byte 32) (n : Vector Byte 8) :
    (s.makeInstance k n).nonce = n := rfl
@[simp] theorem State.makeInstance_ctr (k : Vector Byte 32) (n : Vector Byte 8) :
    (s.makeInstance k n).ctr = 0 := rfl
@[simp] theorem State.makeInstance_valid (k : Vector Byte 32) (n : Vector Byte 8) :
    (s.makeInstance k n).valid = true := rfl
@[simp] theorem State.makeInstance_exh (k : Vector Byte 32) (n : Vector Byte 8) :
    (s.makeInstance k n).exh = false := rfl
@[simp] theorem State.makeInstance_lastErr (k : Vector Byte 32) (n : Vector Byte 8) :
    (s.makeInstance k n).lastErr = s.lastErr := rfl
@[simp] theorem State.makeInstance_cmdIn (k : Vector Byte 32) (n : Vector Byte 8) :
    (s.makeInstance k n).cmdIn = s.cmdIn := rfl
@[simp] theorem State.makeInstance_sending (k : Vector Byte 32) (n : Vector Byte 8) :
    (s.makeInstance k n).sending = s.sending := rfl
@[simp] theorem State.makeInstance_respOut (k : Vector Byte 32) (n : Vector Byte 8) :
    (s.makeInstance k n).respOut = s.respOut := rfl
@[simp] theorem State.makeInstance_resetPin (k : Vector Byte 32) (n : Vector Byte 8) :
    (s.makeInstance k n).resetPin = s.resetPin := rfl

@[simp] theorem State.clearInstance_cfg : s.clearInstance.cfg = s.cfg := rfl
@[simp] theorem State.clearInstance_x : s.clearInstance.x = s.x := rfl
@[simp] theorem State.clearInstance_key : s.clearInstance.key = Vector.replicate 32 0 := rfl
@[simp] theorem State.clearInstance_nonce : s.clearInstance.nonce = Vector.replicate 8 0 := rfl
@[simp] theorem State.clearInstance_ctr : s.clearInstance.ctr = 0 := rfl
@[simp] theorem State.clearInstance_valid : s.clearInstance.valid = false := rfl
@[simp] theorem State.clearInstance_exh : s.clearInstance.exh = false := rfl
@[simp] theorem State.clearInstance_lastErr : s.clearInstance.lastErr = s.lastErr := rfl
@[simp] theorem State.clearInstance_cmdIn : s.clearInstance.cmdIn = s.cmdIn := rfl
@[simp] theorem State.clearInstance_sending : s.clearInstance.sending = s.sending := rfl
@[simp] theorem State.clearInstance_respOut : s.clearInstance.respOut = s.respOut := rfl
@[simp] theorem State.clearInstance_resetPin : s.clearInstance.resetPin = s.resetPin := rfl

@[simp] theorem State.setCtr_cfg (c : BitVec 64) : (s.setCtr c).cfg = s.cfg := rfl
@[simp] theorem State.setCtr_x (c : BitVec 64) : (s.setCtr c).x = s.x := rfl
@[simp] theorem State.setCtr_key (c : BitVec 64) : (s.setCtr c).key = s.key := rfl
@[simp] theorem State.setCtr_nonce (c : BitVec 64) : (s.setCtr c).nonce = s.nonce := rfl
@[simp] theorem State.setCtr_ctr (c : BitVec 64) : (s.setCtr c).ctr = c := rfl
@[simp] theorem State.setCtr_valid (c : BitVec 64) : (s.setCtr c).valid = s.valid := rfl
@[simp] theorem State.setCtr_exh (c : BitVec 64) : (s.setCtr c).exh = false := rfl
@[simp] theorem State.setCtr_lastErr (c : BitVec 64) : (s.setCtr c).lastErr = s.lastErr := rfl
@[simp] theorem State.setCtr_cmdIn (c : BitVec 64) : (s.setCtr c).cmdIn = s.cmdIn := rfl
@[simp] theorem State.setCtr_sending (c : BitVec 64) : (s.setCtr c).sending = s.sending := rfl
@[simp] theorem State.setCtr_respOut (c : BitVec 64) : (s.setCtr c).respOut = s.respOut := rfl
@[simp] theorem State.setCtr_resetPin (c : BitVec 64) : (s.setCtr c).resetPin = s.resetPin := rfl

@[simp] theorem State.hostSend_cfg (bs : Bytes) : (s.hostSend bs).cfg = s.cfg := rfl
@[simp] theorem State.hostSend_x (bs : Bytes) : (s.hostSend bs).x = s.x := rfl
@[simp] theorem State.hostSend_key (bs : Bytes) : (s.hostSend bs).key = s.key := rfl
@[simp] theorem State.hostSend_nonce (bs : Bytes) : (s.hostSend bs).nonce = s.nonce := rfl
@[simp] theorem State.hostSend_ctr (bs : Bytes) : (s.hostSend bs).ctr = s.ctr := rfl
@[simp] theorem State.hostSend_valid (bs : Bytes) : (s.hostSend bs).valid = s.valid := rfl
@[simp] theorem State.hostSend_exh (bs : Bytes) : (s.hostSend bs).exh = s.exh := rfl
@[simp] theorem State.hostSend_lastErr (bs : Bytes) : (s.hostSend bs).lastErr = s.lastErr := rfl
@[simp] theorem State.hostSend_cmdIn (bs : Bytes) : (s.hostSend bs).cmdIn = s.cmdIn ++ bs := rfl
@[simp] theorem State.hostSend_sending (bs : Bytes) : (s.hostSend bs).sending = s.sending := rfl
@[simp] theorem State.hostSend_respOut (bs : Bytes) : (s.hostSend bs).respOut = s.respOut := rfl
@[simp] theorem State.hostSend_resetPin (bs : Bytes) : (s.hostSend bs).resetPin = s.resetPin := rfl

@[simp] theorem State.hostTook_cfg (n : Nat) : (s.hostTook n).cfg = s.cfg := rfl
@[simp] theorem State.hostTook_x (n : Nat) : (s.hostTook n).x = s.x := rfl
@[simp] theorem State.hostTook_key (n : Nat) : (s.hostTook n).key = s.key := rfl
@[simp] theorem State.hostTook_nonce (n : Nat) : (s.hostTook n).nonce = s.nonce := rfl
@[simp] theorem State.hostTook_ctr (n : Nat) : (s.hostTook n).ctr = s.ctr := rfl
@[simp] theorem State.hostTook_valid (n : Nat) : (s.hostTook n).valid = s.valid := rfl
@[simp] theorem State.hostTook_exh (n : Nat) : (s.hostTook n).exh = s.exh := rfl
@[simp] theorem State.hostTook_lastErr (n : Nat) : (s.hostTook n).lastErr = s.lastErr := rfl
@[simp] theorem State.hostTook_cmdIn (n : Nat) : (s.hostTook n).cmdIn = s.cmdIn := rfl
@[simp] theorem State.hostTook_sending (n : Nat) : (s.hostTook n).sending = s.sending := rfl
@[simp] theorem State.hostTook_respOut (n : Nat) : (s.hostTook n).respOut = s.respOut.drop n := rfl
@[simp] theorem State.hostTook_resetPin (n : Nat) : (s.hostTook n).resetPin = s.resetPin := rfl

@[simp] theorem State.setResetPin_cfg (level : Bool) : (s.setResetPin level).cfg = s.cfg := rfl
@[simp] theorem State.setResetPin_x (level : Bool) : (s.setResetPin level).x = s.x := rfl
@[simp] theorem State.setResetPin_key (level : Bool) : (s.setResetPin level).key = s.key := rfl
@[simp] theorem State.setResetPin_nonce (level : Bool) :
    (s.setResetPin level).nonce = s.nonce := rfl
@[simp] theorem State.setResetPin_ctr (level : Bool) : (s.setResetPin level).ctr = s.ctr := rfl
@[simp] theorem State.setResetPin_valid (level : Bool) :
    (s.setResetPin level).valid = s.valid := rfl
@[simp] theorem State.setResetPin_exh (level : Bool) : (s.setResetPin level).exh = s.exh := rfl
@[simp] theorem State.setResetPin_lastErr (level : Bool) :
    (s.setResetPin level).lastErr = s.lastErr := rfl
@[simp] theorem State.setResetPin_cmdIn (level : Bool) :
    (s.setResetPin level).cmdIn = s.cmdIn := rfl
@[simp] theorem State.setResetPin_sending (level : Bool) :
    (s.setResetPin level).sending = s.sending := rfl
@[simp] theorem State.setResetPin_respOut (level : Bool) :
    (s.setResetPin level).respOut = s.respOut := rfl
@[simp] theorem State.setResetPin_resetPin (level : Bool) :
    (s.setResetPin level).resetPin = level := rfl

@[simp] theorem inReset_cfg : (inReset s).cfg = s.cfg := rfl
@[simp] theorem inReset_x : (inReset s).x = Vector.replicate 16 0 := rfl
@[simp] theorem inReset_key : (inReset s).key = Vector.replicate 32 0 := rfl
@[simp] theorem inReset_nonce : (inReset s).nonce = Vector.replicate 8 0 := rfl
@[simp] theorem inReset_ctr : (inReset s).ctr = 0 := rfl
@[simp] theorem inReset_valid : (inReset s).valid = false := rfl
@[simp] theorem inReset_exh : (inReset s).exh = false := rfl
@[simp] theorem inReset_lastErr : (inReset s).lastErr = 0 := rfl
@[simp] theorem inReset_cmdIn : (inReset s).cmdIn = [] := rfl
@[simp] theorem inReset_sending : (inReset s).sending = [] := rfl
@[simp] theorem inReset_respOut : (inReset s).respOut = s.respOut := rfl
@[simp] theorem inReset_resetPin : (inReset s).resetPin = s.resetPin := rfl

/-! ENCRYPT's counter update writes CTR and EXH only. -/

@[simp] theorem State.advanceCtr_cfg (n : Nat) : (s.advanceCtr n).cfg = s.cfg := by
  unfold State.advanceCtr; split <;> rfl

@[simp] theorem State.advanceCtr_x (n : Nat) : (s.advanceCtr n).x = s.x := by
  unfold State.advanceCtr; split <;> rfl

@[simp] theorem State.advanceCtr_key (n : Nat) : (s.advanceCtr n).key = s.key := by
  unfold State.advanceCtr; split <;> rfl

@[simp] theorem State.advanceCtr_nonce (n : Nat) : (s.advanceCtr n).nonce = s.nonce := by
  unfold State.advanceCtr; split <;> rfl

@[simp] theorem State.advanceCtr_valid (n : Nat) : (s.advanceCtr n).valid = s.valid := by
  unfold State.advanceCtr; split <;> rfl

@[simp] theorem State.advanceCtr_lastErr (n : Nat) : (s.advanceCtr n).lastErr = s.lastErr := by
  unfold State.advanceCtr; split <;> rfl

@[simp] theorem State.advanceCtr_cmdIn (n : Nat) : (s.advanceCtr n).cmdIn = s.cmdIn := by
  unfold State.advanceCtr; split <;> rfl

@[simp] theorem State.advanceCtr_sending (n : Nat) : (s.advanceCtr n).sending = s.sending := by
  unfold State.advanceCtr; split <;> rfl

@[simp] theorem State.advanceCtr_respOut (n : Nat) : (s.advanceCtr n).respOut = s.respOut := by
  unfold State.advanceCtr; split <;> rfl

@[simp] theorem State.advanceCtr_resetPin (n : Nat) : (s.advanceCtr n).resetPin = s.resetPin := by
  unfold State.advanceCtr; split <;> rfl

/-- The wrap at 2^64 (R168). -/
theorem State.advanceCtr_wrap (n : Nat) (h : s.ctr.toNat + n = 2 ^ 64) :
    s.advanceCtr n = { s with ctr := 0, exh := true } := if_pos h

/-- No wrap: CTR is advanced by n (R168). -/
theorem State.advanceCtr_next (n : Nat) (h : s.ctr.toNat + n ≠ 2 ^ 64) :
    s.advanceCtr n = { s with ctr := s.ctr + BitVec.ofNat 64 n } := if_neg h

end Sys2Proof.Machine
end

