-- ==== Sys2Proof/Laws/Ops.lean ====
section
/-! SUPPORT. What each shared operation can do, said once: how a command ends, how a register is
written, and what one step is. -/

namespace Sys2Proof.Machine

/-! ## Registers -/

@[simp] theorem State.setReg_reg_self (s : State) (r : Reg) (v : Word) : (s.setReg r v).reg r = v := by
  simp [State.reg]

theorem State.setReg_reg_of_ne (s : State) {r q : Reg} (v : Word) (h : q ≠ r) :
    (s.setReg r v).reg q = s.reg q := by
  have hv : r.val ≠ q.val := fun e => h (Fin.ext e.symm)
  simp [State.reg, Vector.getElem_set_ne, hv]

/-- Two matrices are equal when all their 16 words are. -/
theorem StateMatrix.ext_reg {m n : StateMatrix} (h : ∀ r : Reg, m[r] = n[r]) : m = n := by
  apply Vector.ext
  intro i hi
  exact h ⟨i, hi⟩

/-! ## How a command ends -/

@[simp] theorem reply_eq (frames : List Bytes) (s : State) :
    reply frames s = .next { s with sending := s.sending ++ Resp.serialize ⟨0, frames⟩ } := rfl

@[simp] theorem complete_eq (frames : List Bytes) (s : State) :
    complete frames s =
      .next { s with lastErr := 0, sending := s.sending ++ Resp.serialize ⟨0, frames⟩ } := rfl

@[simp] theorem raiseErr_eq (e : ErrCode) (s : State) :
    raiseErr e s =
      .next { s with lastErr := e.code, sending := s.sending ++ Resp.serialize ⟨e.code, []⟩ } := rfl

@[simp] theorem illegalHeader_eq (s : State) :
    illegalHeader s =
      .next { s with
        lastErr := ErrCode.illegalCommand.code
        sending := s.sending ++ Resp.serialize ⟨ErrCode.illegalCommand.code, []⟩ } := rfl

/-- A response without frames is its response word (R72). -/
theorem Resp.serialize_nil (c : BitVec 8) : Resp.serialize ⟨c, []⟩ = [c, 0, 0, 0] := by
  simp only [Resp.serialize, List.flatMap_nil, List.append_nil, bytes32, List.cons.injEq, and_true]
  refine ⟨?_, ?_, ?_, ?_⟩ <;> apply BitVec.eq_of_toNat_eq <;> rw [extract_toNat] <;>
    have := c.isLt <;> simp <;> omega

/-- A response with one frame: the response word, the frame's length, the frame (R71, R72). -/
theorem Resp.serialize_one (c : BitVec 8) (f : Bytes) :
    Resp.serialize ⟨c, [f]⟩ = [c, 0, 0, 0] ++ (bytes64 (BitVec.ofNat 64 f.length) ++ f) := by
  rw [← Resp.serialize_nil c]
  simp [Resp.serialize, frameBytes]

/-! ## One step -/

/-- Everything a step can do: reset, send a byte, wait, an illegal header, or a legal command. -/
theorem step_cases (s : State) :
    (s.resetPin = true ∧ step s = .next (inReset s)) ∨
    (∃ b rest, s.resetPin = false ∧ s.sending = b :: rest ∧ step s = .next (s.sendByte b rest)) ∨
    (s.resetPin = false ∧ s.sending = [] ∧ decode s.cmdIn = .incomplete ∧ step s = .next s) ∨
    (∃ w rest, s.resetPin = false ∧ s.sending = [] ∧ decode s.cmdIn = .command (.illegal w) rest ∧
      step s = illegalHeader (s.consume rest)) ∨
    (∃ i rest, s.resetPin = false ∧ s.sending = [] ∧ decode s.cmdIn = .command (.legal i) rest ∧
      step s = exec i (s.consume rest)) := by
  unfold step
  cases hp : s.resetPin with
  | true => exact .inl ⟨rfl, rfl⟩
  | false =>
    right
    cases hs : s.sending with
    | cons b bs => exact .inl ⟨b, bs, rfl, rfl, rfl⟩
    | nil =>
      right
      unfold stepCommand
      cases hd : decode s.cmdIn with
      | incomplete => exact .inl ⟨rfl, rfl, rfl, rfl⟩
      | command c rest =>
        right
        cases c with
        | illegal w => exact .inl ⟨w, rest, rfl, rfl, rfl, rfl⟩
        | legal i => exact .inr ⟨i, rest, rfl, rfl, rfl, rfl⟩

/-- With no reset and nothing to send, a step turns to the next command (R70). -/
theorem step_of_idle {s : State} (hp : s.resetPin = false) (hs : s.sending = []) :
    step s = stepCommand s := by
  rw [step, hp, hs]
  rfl

/-- With no reset, a byte of the response goes out before any command is read (R70). -/
theorem step_of_sending {s : State} {b : Byte} {rest : Bytes} (hp : s.resetPin = false)
    (hs : s.sending = b :: rest) : step s = .next (s.sendByte b rest) := by
  rw [step, hp, hs]
  rfl

/-- While reset is asserted a step is in reset (R230). -/
theorem step_of_reset {s : State} (hp : s.resetPin = true) : step s = .next (inReset s) := by
  rw [step, hp]
  rfl

end Sys2Proof.Machine
end

