-- ==== Sys2Proof/Laws/Stream.lean ====
section
/-! SUPPORT. The lengths of the keystream functions (42_keystream.md R161 to R166), and what ENCRYPT
does once its errors are passed. -/

namespace Sys2Proof.Machine

/-- R161: 64 bytes. -/
@[simp] theorem initBlock_length (k : Vector Byte 32) (n : Vector Byte 8) (c : BitVec 64) :
    (initBlock k n c).length = 64 := by
  simp [initBlock, sigma0, sigma1, sigma2, sigma3]

/-- R163: 64 bytes. -/
@[simp] theorem keyBlock_length (o : ColumnOrder) (k : Vector Byte 32) (n : Vector Byte 8)
    (c : BitVec 64) : (keyBlock o k n c).length = 64 := by
  simp [keyBlock]

/-- R164: 64·n bytes. -/
@[simp] theorem keystream_length (o : ColumnOrder) (k : Vector Byte 32) (n : Vector Byte 8)
    (c : BitVec 64) (m : Nat) : (keystream o k n c m).length = 64 * m := by
  induction m generalizing c with
  | zero => rfl
  | succ m ih => simp [keystream, ih]; omega

/-- R164: a keystream is the keystream of its first blocks, then that of the rest. -/
theorem keystream_add (o : ColumnOrder) (k : Vector Byte 32) (n : Vector Byte 8) (c : BitVec 64)
    (a b : Nat) :
    keystream o k n c (a + b) =
      keystream o k n c a ++ keystream o k n (c + BitVec.ofNat 64 a) b := by
  induction a generalizing c with
  | zero => simp [keystream]
  | succ a ih =>
    have hc : c + 1 + BitVec.ofNat 64 a = c + BitVec.ofNat 64 (a + 1) := by
      apply BitVec.eq_of_toNat_eq
      simp
      omega
    rw [show a + 1 + b = (a + b) + 1 by omega, keystream, keystream, ih, List.append_assoc, hc]

/-- R55, R170: the counter's eight bytes read back. -/
theorem ctrOfBytes_bytes64 (c : BitVec 64) : ctrOfBytes (bytes64 c) = c :=
  le64_of_bytes64 (c := c) rfl

/-- R165: the blocks cover the message. -/
theorem length_le_nblocks (m : Bytes) : m.length ≤ 64 * nblocks m := by
  unfold nblocks
  omega

/-- R166: an XOR that is not rejected keeps the message's length. -/
theorem xorStream_eq {m ks : Bytes} (h : m.length ≤ ks.length) :
    xorStream m ks = some (List.zipWith (fun a b => a ^^^ b) m ks) := by
  simp [xorStream, h]

/-- R168, R205: with an instance and enough blocks, ENCRYPT completes; its XOR is never rejected. -/
theorem execEncrypt_eq {m : Bytes} {s : State} (hv : s.valid = true)
    (hn : nblocks m ≤ s.blocksLeft) :
    execEncrypt m s =
      complete [List.zipWith (fun a b => a ^^^ b) m (s.keystream (nblocks m))]
        (s.afterEncrypt (nblocks m)) := by
  have hx : xorStream m (s.keystream (nblocks m)) =
      some (List.zipWith (fun a b => a ^^^ b) m (s.keystream (nblocks m))) := by
    apply xorStream_eq
    rw [State.keystream, keystream_length]
    exact length_le_nblocks m
  unfold execEncrypt
  rw [if_neg (by simp [hv]), if_neg (by omega), hx]

/-- R168: the ways ENCRYPT can end. It never faults. -/
theorem execEncrypt_cases (m : Bytes) (s : State) :
    (s.valid = false ∧ execEncrypt m s = raiseErr .noInstance s) ∨
    (s.valid = true ∧ s.blocksLeft < nblocks m ∧
      execEncrypt m s = raiseErr .keystreamExhausted s) ∨
    (s.valid = true ∧ nblocks m ≤ s.blocksLeft ∧
      execEncrypt m s =
        complete [List.zipWith (fun a b => a ^^^ b) m (s.keystream (nblocks m))]
          (s.afterEncrypt (nblocks m))) := by
  cases hv : s.valid with
  | false => exact .inl ⟨rfl, if_pos hv⟩
  | true =>
    right
    rcases Nat.lt_or_ge s.blocksLeft (nblocks m) with h | h
    · refine .inl ⟨rfl, h, ?_⟩
      unfold execEncrypt
      rw [if_neg (by simp [hv]), if_pos h]
    · exact .inr ⟨rfl, h, execEncrypt_eq hv h⟩

/-- R168: what the counter update leaves, when the blocks used were left. -/
theorem advanceCtr_of_le {s : State} {n : Nat} (h : n ≤ s.blocksLeft) :
    if s.ctr.toNat + n = 2 ^ 64 then (s.advanceCtr n).ctr = 0 ∧ (s.advanceCtr n).exh = true
    else (s.advanceCtr n).ctr.toNat = s.ctr.toNat + n ∧ (s.advanceCtr n).exh = s.exh := by
  have hc := s.ctr.isLt
  split_ifs with hw
  · rw [State.advanceCtr_wrap s n hw]
    exact ⟨rfl, rfl⟩
  · rw [State.advanceCtr_next s n hw]
    refine ⟨?_, rfl⟩
    have hs : s.ctr.toNat + n < 2 ^ 64 := by
      unfold State.blocksLeft at h
      split_ifs at h <;> omega
    show (s.ctr + BitVec.ofNat 64 n).toNat = _
    rw [BitVec.toNat_add, BitVec.toNat_ofNat, Nat.mod_eq_of_lt (show n < 2 ^ 64 by omega),
      Nat.mod_eq_of_lt hs]

end Sys2Proof.Machine
end

