-- ==== Sys2Proof/Laws/Exec.lean ====
section
/-! SUPPORT. Each command's next state as one record update of the state before it, so that no later
proof unfolds a meaning: the commands that always complete first, then those that can raise an error. -/

namespace Sys2Proof.Machine

/-- ADD (R103). -/
theorem exec_add (rd rs1 rs2 : Reg) (s : State) :
    exec (.add rd rs1 rs2) s = .next { s with
      x := s.x.set rd (add32 (s.reg rs1) (s.reg rs2))
      lastErr := 0
      sending := s.sending ++ [0, 0, 0, 0] } := by
  simp [exec, execAdd, Resp.serialize_nil, State.setReg]

/-- XOR (R104). -/
theorem exec_xor (rd rs1 rs2 : Reg) (s : State) :
    exec (.xor rd rs1 rs2) s = .next { s with
      x := s.x.set rd (xor32 (s.reg rs1) (s.reg rs2))
      lastErr := 0
      sending := s.sending ++ [0, 0, 0, 0] } := by
  simp [exec, execXor, Resp.serialize_nil, State.setReg]

/-- ROTL (R105). -/
theorem exec_rotl (rd rs1 : Reg) (n : Fin 32) (s : State) :
    exec (.rotl rd rs1 n) s = .next { s with
      x := s.x.set rd (rotl32 (s.reg rs1) n.val)
      lastErr := 0
      sending := s.sending ++ [0, 0, 0, 0] } := by
  simp [exec, execRotl, Resp.serialize_nil, State.setReg]

/-- CROUND (R133). -/
theorem exec_cround (s : State) :
    exec .cround s = .next { s with
      x := columnRound s.cfg.columnOrder s.x
      lastErr := 0
      sending := s.sending ++ [0, 0, 0, 0] } := by
  simp [exec, execCround, Resp.serialize_nil]

/-- RROUND (R134). -/
theorem exec_rround (s : State) :
    exec .rround s = .next { s with
      x := rowRound s.x
      lastErr := 0
      sending := s.sending ++ [0, 0, 0, 0] } := by
  simp [exec, execRround, Resp.serialize_nil]

/-- DROUND (R135). -/
theorem exec_dround (s : State) :
    exec .dround s = .next { s with
      x := doubleRound s.cfg.columnOrder s.x
      lastErr := 0
      sending := s.sending ++ [0, 0, 0, 0] } := by
  simp [exec, execDround, Resp.serialize_nil]

/-- CORE (R136). -/
theorem exec_core (s : State) :
    exec .core s = .next { s with
      x := coreRounds s.cfg.columnOrder s.x
      lastErr := 0
      sending := s.sending ++ [0, 0, 0, 0] } := by
  simp [exec, execCore, Resp.serialize_nil]

/-- HASH (R137). -/
theorem exec_hash (s : State) :
    exec .hash s = .next { s with
      x := hashMatrix s.cfg.columnOrder s.x
      lastErr := 0
      sending := s.sending ++ [0, 0, 0, 0] } := by
  simp [exec, execHash, Resp.serialize_nil]

/-- RDST (R131). -/
theorem exec_rdst (s : State) :
    exec .rdst s = .next { s with
      lastErr := 0
      sending := s.sending ++
        ([0, 0, 0, 0] ++ (bytes64 (BitVec.ofNat 64 (bytesOfMatrix s.x).length) ++ bytesOfMatrix s.x)) } := by
  simp [exec, execRdst, Resp.serialize_one]

/-- GETSTAT (R172). -/
theorem exec_getstat (s : State) :
    exec .getstat s = .next { s with
      sending := s.sending ++
        ([0, 0, 0, 0] ++ (bytes64 (BitVec.ofNat 64 (bytes32 s.statusWord).length) ++ bytes32 s.statusWord)) } := by
  simp [exec, execGetstat, Resp.serialize_one]

/-- A command that raises E and changes nothing else (R203). -/
theorem raiseErr_next (e : ErrCode) (s : State) :
    raiseErr e s = .next { s with
      lastErr := e.code
      sending := s.sending ++ [e.code, 0, 0, 0] } := by
  rw [← Resp.serialize_nil]; rfl

/-- LDST (R130). -/
theorem exec_ldst (b : Bytes) (s : State) :
    exec (.ldst b) s =
      if b.length = 64 then .next { s with
        x := matrixOfBytes b
        lastErr := 0
        sending := s.sending ++ [0, 0, 0, 0] }
      else .next { s with lastErr := 0x07, sending := s.sending ++ [0x07, 0, 0, 0] } := by
  simp [exec, execLdst, Resp.serialize_nil, ErrCode.code]

/-- QR (R132). -/
theorem exec_qr (a b c d : Reg) (s : State) :
    exec (.qr a b c d) s =
      if pairwiseDistinct a b c d then .next { s with
        x := qrLane ⟨a, b, c, d⟩ s.x
        lastErr := 0
        sending := s.sending ++ [0, 0, 0, 0] }
      else .next { s with lastErr := 0x08, sending := s.sending ++ [0x08, 0, 0, 0] } := by
  simp [exec, execQr, Resp.serialize_nil, ErrCode.code]

/-- GETCTR (R171). -/
theorem exec_getctr (s : State) :
    exec .getctr s =
      if s.valid = false then .next { s with lastErr := 0x05, sending := s.sending ++ [0x05, 0, 0, 0] }
      else .next { s with
        lastErr := 0
        sending := s.sending ++
          ([0, 0, 0, 0] ++ (bytes64 (BitVec.ofNat 64 (bytes64 s.ctr).length) ++ bytes64 s.ctr)) } := by
  simp [exec, execGetctr, Resp.serialize_nil, Resp.serialize_one, ErrCode.code]

/-- SETCTR (R170). -/
theorem exec_setctr (v : Bytes) (s : State) :
    exec (.setctr v) s =
      if v.length ≠ 8 then .next { s with lastErr := 0x07, sending := s.sending ++ [0x07, 0, 0, 0] }
      else if s.valid = false then
        .next { s with lastErr := 0x05, sending := s.sending ++ [0x05, 0, 0, 0] }
      else .next { s with
        ctr := ctrOfBytes v
        exh := false
        lastErr := 0
        sending := s.sending ++ [0, 0, 0, 0] } := by
  simp [exec, execSetctr, Resp.serialize_nil, ErrCode.code]

/-- What a failed CONSTRUCT leaves (R167, R203). -/
theorem failedConstruct_next (e : ErrCode) (s : State) :
    raiseErr e s.clearInstance = .next { s with
      key := Vector.replicate 32 0
      nonce := Vector.replicate 8 0
      ctr := 0
      valid := false
      exh := false
      lastErr := e.code
      sending := s.sending ++ [e.code, 0, 0, 0] } := by
  rw [← Resp.serialize_nil]; rfl

/-- CONSTRUCT (R167). -/
theorem exec_construct (k n : Bytes) (s : State) :
    exec (.construct k n) s =
      if k.length ≠ 32 then raiseErr .invalidKeyLength s.clearInstance
      else if n.length ≠ 8 then raiseErr .invalidNonceLength s.clearInstance
      else .next { s with
        key := byteVector 32 k
        nonce := byteVector 8 n
        ctr := 0
        valid := true
        exh := false
        lastErr := 0
        sending := s.sending ++ [0, 0, 0, 0] } := by
  simp [exec, execConstruct, Resp.serialize_nil]

/-- The bytes ENCRYPT answers with (R166, R168). -/
def cipherBytes (m : Bytes) (s : State) : Bytes :=
  List.zipWith (fun a b => a ^^^ b) m (s.keystream (nblocks m))

@[simp] theorem cipherBytes_length (m : Bytes) (s : State) : (cipherBytes m s).length = m.length := by
  rw [cipherBytes, List.length_zipWith, State.keystream, keystream_length]
  exact min_eq_left (length_le_nblocks m)

/-- ENCRYPT (R168). -/
theorem exec_encrypt (m : Bytes) (s : State) :
    exec (.encrypt m) s =
      if s.valid = false then .next { s with lastErr := 0x05, sending := s.sending ++ [0x05, 0, 0, 0] }
      else if s.blocksLeft < nblocks m then
        .next { s with lastErr := 0x04, sending := s.sending ++ [0x04, 0, 0, 0] }
      else .next { s with
        x := Vector.replicate 16 0
        ctr := (s.advanceCtr (nblocks m)).ctr
        exh := (s.advanceCtr (nblocks m)).exh
        lastErr := 0
        sending := s.sending ++
          ([0, 0, 0, 0] ++ (bytes64 (BitVec.ofNat 64 m.length) ++ cipherBytes m s)) } := by
  show execEncrypt m s = _
  rcases execEncrypt_cases m s with ⟨hv, he⟩ | ⟨hv, hb, he⟩ | ⟨hv, hb, he⟩
  · rw [he, if_pos hv, raiseErr_next]; rfl
  · rw [he, if_neg (by simp [hv]), if_pos hb, raiseErr_next]; rfl
  · rw [he, if_neg (by simp [hv]), if_neg (by omega), ← cipherBytes]
    simp [State.afterEncrypt, Resp.serialize_one]

/-- A command reads neither channel nor the bytes still to be sent, and adds one response to these: on other
channels it leaves the same registers and adds the same response. -/
theorem exec_channels {i : Instr} {s t : State} (h : exec i s = .next t) :
    ∃ r : Bytes, t.sending = s.sending ++ r ∧ t.cmdIn = s.cmdIn ∧ t.respOut = s.respOut ∧
      t.resetPin = s.resetPin ∧ t.cfg = s.cfg ∧
      ∀ c a o, exec i { s with cmdIn := c, sending := a, respOut := o } =
        .next { t with cmdIn := c, sending := a ++ r, respOut := o } := by
  cases i with
  | construct k n =>
    simp only [exec_construct, failedConstruct_next] at h ⊢
    split_ifs at h ⊢ <;> cases h <;> exact ⟨_, rfl, rfl, rfl, rfl, rfl, fun _ _ _ => rfl⟩
  | encrypt m =>
    rw [exec_encrypt] at h
    split_ifs at h with hv hb <;> cases h <;> refine ⟨_, rfl, rfl, rfl, rfl, rfl, fun _ _ _ => ?_⟩
    · rw [exec_encrypt]
      exact if_pos hv
    · rw [exec_encrypt]
      exact (if_neg hv).trans (if_pos hb)
    · rw [exec_encrypt]
      refine (if_neg hv).trans ((if_neg hb).trans ?_)
      simp only [State.advanceCtr]
      split_ifs <;> rfl
  | setctr v =>
    simp only [exec_setctr] at h ⊢
    split_ifs at h ⊢ <;> cases h <;> exact ⟨_, rfl, rfl, rfl, rfl, rfl, fun _ _ _ => rfl⟩
  | getctr =>
    simp only [exec_getctr] at h ⊢
    split_ifs at h ⊢ <;> cases h <;> exact ⟨_, rfl, rfl, rfl, rfl, rfl, fun _ _ _ => rfl⟩
  | ldst b =>
    simp only [exec_ldst] at h ⊢
    split_ifs at h ⊢ <;> cases h <;> exact ⟨_, rfl, rfl, rfl, rfl, rfl, fun _ _ _ => rfl⟩
  | qr a b c d =>
    simp only [exec_qr] at h ⊢
    split_ifs at h ⊢ <;> cases h <;> exact ⟨_, rfl, rfl, rfl, rfl, rfl, fun _ _ _ => rfl⟩
  | getstat =>
    simp only [exec_getstat] at h ⊢
    cases h
    exact ⟨_, rfl, rfl, rfl, rfl, rfl, fun _ _ _ => rfl⟩
  | rdst =>
    simp only [exec_rdst] at h ⊢
    cases h
    exact ⟨_, rfl, rfl, rfl, rfl, rfl, fun _ _ _ => rfl⟩
  | cround =>
    simp only [exec_cround] at h ⊢
    cases h
    exact ⟨_, rfl, rfl, rfl, rfl, rfl, fun _ _ _ => rfl⟩
  | rround =>
    simp only [exec_rround] at h ⊢
    cases h
    exact ⟨_, rfl, rfl, rfl, rfl, rfl, fun _ _ _ => rfl⟩
  | dround =>
    simp only [exec_dround] at h ⊢
    cases h
    exact ⟨_, rfl, rfl, rfl, rfl, rfl, fun _ _ _ => rfl⟩
  | core =>
    simp only [exec_core] at h ⊢
    cases h
    exact ⟨_, rfl, rfl, rfl, rfl, rfl, fun _ _ _ => rfl⟩
  | hash =>
    simp only [exec_hash] at h ⊢
    cases h
    exact ⟨_, rfl, rfl, rfl, rfl, rfl, fun _ _ _ => rfl⟩
  | add rd rs1 rs2 =>
    simp only [exec_add] at h ⊢
    cases h
    exact ⟨_, rfl, rfl, rfl, rfl, rfl, fun _ _ _ => rfl⟩
  | xor rd rs1 rs2 =>
    simp only [exec_xor] at h ⊢
    cases h
    exact ⟨_, rfl, rfl, rfl, rfl, rfl, fun _ _ _ => rfl⟩
  | rotl rd rs1 n =>
    simp only [exec_rotl] at h ⊢
    cases h
    exact ⟨_, rfl, rfl, rfl, rfl, rfl, fun _ _ _ => rfl⟩

/-- The same of a command that may be an illegal header (R81). -/
theorem execCmd_channels {c : Cmd} {s t : State} (h : execCmd c s = .next t) :
    ∃ r : Bytes, t.sending = s.sending ++ r ∧ t.cmdIn = s.cmdIn ∧ t.respOut = s.respOut ∧
      t.resetPin = s.resetPin ∧ t.cfg = s.cfg ∧
      ∀ i a o, execCmd c { s with cmdIn := i, sending := a, respOut := o } =
        .next { t with cmdIn := i, sending := a ++ r, respOut := o } := by
  cases c with
  | legal i => exact exec_channels h
  | illegal w =>
    simp only [execCmd, illegalHeader, raiseErr_next] at h ⊢
    cases h
    exact ⟨_, rfl, rfl, rfl, rfl, rfl, fun _ _ _ => rfl⟩

end Sys2Proof.Machine
end

