-- ==== Sys2Proof/Laws/Headers.lean ====
section
/-! SUPPORT. The header words of each opcode (30_encoding.md R73 to R77): which are legal, what they say,
and what the engine answers to the others. -/

namespace Sys2Proof.Machine

/-- R76, R77: an illegal header word is taken alone. -/
theorem decode_illegal {w : Word} {e : HeaderReject} (hd : decodeHeader w = .error e) (rest : Bytes) :
    decode (bytes32 w ++ rest) = .command (.illegal w) rest := by
  rw [decode, takeWord_bytes32]
  simp only [hd]

/-- R77: an illegal header word at the front of the channel. -/
theorem step_illegal {w : Word} {e : HeaderReject} (hd : decodeHeader w = .error e) {s : State}
    {rest : Bytes} (hp : s.resetPin = false) (hs : s.sending = []) (hc : s.cmdIn = bytes32 w ++ rest) :
    step s = .next { s with
      cmdIn := rest
      lastErr := 0x06
      sending := [0x06, 0, 0, 0] } := by
  rw [step_of_idle hp hs, stepCommand, hc, decode_illegal hd]
  simp [execCmd, ErrCode.code, Resp.serialize_nil, hs]

/-- How an opcode's arm of `decodeHeader` gives its header words. -/
theorem headerWords_of {op : Nat} {reserved : Word → Prop} {test : Word → Bool} {arm : Word → Header}
    {means : Word → Header → Prop} (ht : ∀ w, test w = true ↔ reserved w)
    (hd : ∀ w : Word, w.toNat % 256 = op → decodeHeader w = ifReservedZero (test w) (arm w))
    (hm : ∀ w, means w (arm w)) : HeaderWords op reserved means := by
  intro w hw
  have h := hd w (by omega)
  constructor
  · intro hr
    rw [(ht w).2 hr] at h
    exact ⟨arm w, h, hm w⟩
  · intro hr s rest hp hs hc
    have hf : test w = false := by
      cases hb : test w with
      | false => rfl
      | true => exact absurd ((ht w).1 hb) hr
    rw [hf] at h
    exact step_illegal h hp hs hc

/-- The arm of `decodeHeader` an opcode selects. -/
theorem decodeHeader_arm {w : Word} {op : Nat} (h : w.toNat % 256 = op) : (opField w).toNat = op := by
  rw [opField_toNat, h]

section FormatN

/-- Format N: the whole word is the opcode. -/
theorem headerWords_N {op : Nat} {hdr : Header}
    (hd : ∀ w : Word, w.toNat % 256 = op → decodeHeader w = ifReservedZero (reservedZeroN w) hdr) :
    HeaderWords op reservedN (fun _ h => h = hdr) :=
  headerWords_of (test := reservedZeroN) (arm := fun _ => hdr) reservedZeroN_iff hd fun _ => rfl

theorem headerWords_construct : HeaderWords 0x01 reservedN (fun _ h => h = .construct) :=
  headerWords_N fun w hw => by rw [decodeHeader, decodeHeader_arm hw]; rfl

theorem headerWords_encrypt : HeaderWords 0x02 reservedN (fun _ h => h = .encrypt) :=
  headerWords_N fun w hw => by rw [decodeHeader, decodeHeader_arm hw]; rfl

theorem headerWords_setctr : HeaderWords 0x03 reservedN (fun _ h => h = .setctr) :=
  headerWords_N fun w hw => by rw [decodeHeader, decodeHeader_arm hw]; rfl

theorem headerWords_getctr : HeaderWords 0x04 reservedN (fun _ h => h = .getctr) :=
  headerWords_N fun w hw => by rw [decodeHeader, decodeHeader_arm hw]; rfl

theorem headerWords_getstat : HeaderWords 0x05 reservedN (fun _ h => h = .getstat) :=
  headerWords_N fun w hw => by rw [decodeHeader, decodeHeader_arm hw]; rfl

theorem headerWords_ldst : HeaderWords 0x10 reservedN (fun _ h => h = .ldst) :=
  headerWords_N fun w hw => by rw [decodeHeader, decodeHeader_arm hw]; rfl

theorem headerWords_rdst : HeaderWords 0x11 reservedN (fun _ h => h = .rdst) :=
  headerWords_N fun w hw => by rw [decodeHeader, decodeHeader_arm hw]; rfl

theorem headerWords_cround : HeaderWords 0x21 reservedN (fun _ h => h = .cround) :=
  headerWords_N fun w hw => by rw [decodeHeader, decodeHeader_arm hw]; rfl

theorem headerWords_rround : HeaderWords 0x22 reservedN (fun _ h => h = .rround) :=
  headerWords_N fun w hw => by rw [decodeHeader, decodeHeader_arm hw]; rfl

theorem headerWords_dround : HeaderWords 0x23 reservedN (fun _ h => h = .dround) :=
  headerWords_N fun w hw => by rw [decodeHeader, decodeHeader_arm hw]; rfl

theorem headerWords_core : HeaderWords 0x24 reservedN (fun _ h => h = .core) :=
  headerWords_N fun w hw => by rw [decodeHeader, decodeHeader_arm hw]; rfl

theorem headerWords_hash : HeaderWords 0x25 reservedN (fun _ h => h = .hash) :=
  headerWords_N fun w hw => by rw [decodeHeader, decodeHeader_arm hw]; rfl

end FormatN

section Fields

theorem headerWords_qr : HeaderWords 0x20 reservedQ fun w h => ∃ a b c d : Reg, h = .qr a b c d ∧
    a.val = w.toNat / 2 ^ 8 % 2 ^ 4 ∧ b.val = w.toNat / 2 ^ 12 % 2 ^ 4 ∧
    c.val = w.toNat / 2 ^ 16 % 2 ^ 4 ∧ d.val = w.toNat / 2 ^ 20 % 2 ^ 4 :=
  headerWords_of reservedZeroQ_iff (fun w hw => by rw [decodeHeader, decodeHeader_arm hw]; rfl) fun w =>
    ⟨regField w 8, regField w 12, regField w 16, regField w 20, rfl, regField_val w 8, regField_val w 12,
      regField_val w 16, regField_val w 20⟩

theorem headerWords_add : HeaderWords 0x30 reservedR fun w h => ∃ rd rs1 rs2 : Reg, h = .add rd rs1 rs2 ∧
    rd.val = w.toNat / 2 ^ 8 % 2 ^ 4 ∧ rs1.val = w.toNat / 2 ^ 12 % 2 ^ 4 ∧
    rs2.val = w.toNat / 2 ^ 16 % 2 ^ 4 :=
  headerWords_of reservedZeroR_iff (fun w hw => by rw [decodeHeader, decodeHeader_arm hw]; rfl) fun w =>
    ⟨regField w 8, regField w 12, regField w 16, rfl, regField_val w 8, regField_val w 12,
      regField_val w 16⟩

theorem headerWords_xor : HeaderWords 0x31 reservedR fun w h => ∃ rd rs1 rs2 : Reg, h = .xor rd rs1 rs2 ∧
    rd.val = w.toNat / 2 ^ 8 % 2 ^ 4 ∧ rs1.val = w.toNat / 2 ^ 12 % 2 ^ 4 ∧
    rs2.val = w.toNat / 2 ^ 16 % 2 ^ 4 :=
  headerWords_of reservedZeroR_iff (fun w hw => by rw [decodeHeader, decodeHeader_arm hw]; rfl) fun w =>
    ⟨regField w 8, regField w 12, regField w 16, rfl, regField_val w 8, regField_val w 12,
      regField_val w 16⟩

theorem headerWords_rotl : HeaderWords 0x32 reservedI fun w h => ∃ (rd rs1 : Reg) (n : Fin 32),
    h = .rotl rd rs1 n ∧ rd.val = w.toNat / 2 ^ 8 % 2 ^ 4 ∧ rs1.val = w.toNat / 2 ^ 12 % 2 ^ 4 ∧
    n.val = w.toNat / 2 ^ 20 % 2 ^ 5 :=
  headerWords_of reservedZeroI_iff (fun w hw => by rw [decodeHeader, decodeHeader_arm hw]; rfl) fun w =>
    ⟨regField w 8, regField w 12, shamtField w, rfl, regField_val w 8, regField_val w 12, shamtField_val w⟩

end Fields

end Sys2Proof.Machine
end

