-- ==== Sys2Proof/Laws/Lanes.lean ====
section
/-! SUPPORT. What a quarter-round on four positions does to each word of the matrix, and the index sets
of the rounds (41_rounds.md R120 to R126). -/

namespace Sys2Proof.Machine

/-- Writing one word: the word itself. -/
theorem set_reg_self (x : StateMatrix) (r : Reg) (v : Word) : (x.set r v)[r] = v := by simp

/-- Writing one word: every other word. -/
theorem set_reg_of_ne (x : StateMatrix) {r q : Reg} (v : Word) (h : q ≠ r) : (x.set r v)[q] = x[q] := by
  have hv : r.val ≠ q.val := fun e => h (Fin.ext e.symm)
  simp [Vector.getElem_set_ne, hv]

/-- The four positions of a lane are distinct. -/
def Lane.Distinct (l : Lane) : Prop := l.a ≠ l.b ∧ l.a ≠ l.c ∧ l.a ≠ l.d ∧ l.b ≠ l.c ∧ l.b ≠ l.d ∧ l.c ≠ l.d

theorem cidx_distinct (order : ColumnOrder) (j : Fin 4) : (cidx order j).Distinct := by
  unfold Lane.Distinct
  cases order <;> revert j <;> decide

theorem ridx_distinct (i : Fin 4) : (ridx i).Distinct := by
  unfold Lane.Distinct
  revert i
  decide

theorem pairwiseDistinct_iff (a b c d : Reg) :
    pairwiseDistinct a b c d = true ↔ Lane.Distinct ⟨a, b, c, d⟩ := by
  simp [pairwiseDistinct, Lane.Distinct, and_assoc]

/-- The quarter-round a lane computes. -/
def laneQr (l : Lane) (x : StateMatrix) : Word × Word × Word × Word :=
  quarterRound x[l.a] x[l.b] x[l.c] x[l.d]

theorem qrLane_eq (l : Lane) (x : StateMatrix) :
    qrLane l x = (((x.set l.a (laneQr l x).1).set l.b (laneQr l x).2.1).set l.c
      (laneQr l x).2.2.1).set l.d (laneQr l x).2.2.2 := rfl

section
variable {l : Lane} (x : StateMatrix)

theorem qrLane_a (h : l.Distinct) : (qrLane l x)[l.a] = (laneQr l x).1 := by
  obtain ⟨hab, hac, had, -, -, -⟩ := h
  rw [qrLane_eq, set_reg_of_ne _ _ had, set_reg_of_ne _ _ hac, set_reg_of_ne _ _ hab, set_reg_self]

theorem qrLane_b (h : l.Distinct) : (qrLane l x)[l.b] = (laneQr l x).2.1 := by
  obtain ⟨-, -, -, hbc, hbd, -⟩ := h
  rw [qrLane_eq, set_reg_of_ne _ _ hbd, set_reg_of_ne _ _ hbc, set_reg_self]

theorem qrLane_c (h : l.Distinct) : (qrLane l x)[l.c] = (laneQr l x).2.2.1 := by
  rw [qrLane_eq, set_reg_of_ne _ _ h.2.2.2.2.2, set_reg_self]

theorem qrLane_d : (qrLane l x)[l.d] = (laneQr l x).2.2.2 := by
  rw [qrLane_eq, set_reg_self]

/-- A quarter-round changes no word but its four. -/
theorem qrLane_of_notMem {r : Reg} (h : r ∉ l.positions) : (qrLane l x)[r] = x[r] := by
  simp only [Lane.positions, List.mem_cons, List.not_mem_nil, or_false, not_or] at h
  obtain ⟨ha, hb, hc, hd⟩ := h
  rw [qrLane_eq, set_reg_of_ne _ _ hd, set_reg_of_ne _ _ hc, set_reg_of_ne _ _ hb, set_reg_of_ne _ _ ha]

end

end Sys2Proof.Machine
end

