-- ==== Sys2Proof/Laws/PerInstr.lean ====
section
/-! SUPPORT. Statements about each command as syntax, one lemma a constructor.
EncodeLength: a command takes 4 bytes, plus `8 + L_k` for each operand frame (30_encoding.md R78).
FramesIn: a command carries exactly `FIN(op)` operand frames (30_encoding.md R70, R75). -/

namespace Sys2Proof.Laws

/-- R78: the length of a command on the channel. -/
def EncodeLength.Statement (i : Instr) : Prop :=
  (encode i).length = 4 + (i.frames.map fun f => 8 + f.length).sum

theorem EncodeLength.construct (key nonce : Bytes) : EncodeLength.Statement (.construct key nonce) := by
  simp [EncodeLength.Statement, encode, Instr.frames]

theorem EncodeLength.encrypt (msg : Bytes) : EncodeLength.Statement (.encrypt msg) := by
  simp [EncodeLength.Statement, encode, Instr.frames]

theorem EncodeLength.setctr (value : Bytes) : EncodeLength.Statement (.setctr value) := by
  simp [EncodeLength.Statement, encode, Instr.frames]

theorem EncodeLength.getctr : EncodeLength.Statement .getctr := by
  simp [EncodeLength.Statement, encode, Instr.frames]

theorem EncodeLength.getstat : EncodeLength.Statement .getstat := by
  simp [EncodeLength.Statement, encode, Instr.frames]

theorem EncodeLength.ldst (block : Bytes) : EncodeLength.Statement (.ldst block) := by
  simp [EncodeLength.Statement, encode, Instr.frames]

theorem EncodeLength.rdst : EncodeLength.Statement .rdst := by
  simp [EncodeLength.Statement, encode, Instr.frames]

theorem EncodeLength.qr (a b c d : Reg) : EncodeLength.Statement (.qr a b c d) := by
  simp [EncodeLength.Statement, encode, Instr.frames]

theorem EncodeLength.cround : EncodeLength.Statement .cround := by
  simp [EncodeLength.Statement, encode, Instr.frames]

theorem EncodeLength.rround : EncodeLength.Statement .rround := by
  simp [EncodeLength.Statement, encode, Instr.frames]

theorem EncodeLength.dround : EncodeLength.Statement .dround := by
  simp [EncodeLength.Statement, encode, Instr.frames]

theorem EncodeLength.core : EncodeLength.Statement .core := by
  simp [EncodeLength.Statement, encode, Instr.frames]

theorem EncodeLength.hash : EncodeLength.Statement .hash := by
  simp [EncodeLength.Statement, encode, Instr.frames]

theorem EncodeLength.add (rd rs1 rs2 : Reg) : EncodeLength.Statement (.add rd rs1 rs2) := by
  simp [EncodeLength.Statement, encode, Instr.frames]

theorem EncodeLength.xor (rd rs1 rs2 : Reg) : EncodeLength.Statement (.xor rd rs1 rs2) := by
  simp [EncodeLength.Statement, encode, Instr.frames]

theorem EncodeLength.rotl (rd rs1 : Reg) (n : Fin 32) : EncodeLength.Statement (.rotl rd rs1 n) := by
  simp [EncodeLength.Statement, encode, Instr.frames]

/-- R70, R75: as many operand frames as the opcode fixes. -/
def FramesIn.Statement (i : Instr) : Prop := i.frames.length = i.header.framesIn

theorem FramesIn.construct (key nonce : Bytes) : FramesIn.Statement (.construct key nonce) := rfl

theorem FramesIn.encrypt (msg : Bytes) : FramesIn.Statement (.encrypt msg) := rfl

theorem FramesIn.setctr (value : Bytes) : FramesIn.Statement (.setctr value) := rfl

theorem FramesIn.getctr : FramesIn.Statement .getctr := rfl

theorem FramesIn.getstat : FramesIn.Statement .getstat := rfl

theorem FramesIn.ldst (block : Bytes) : FramesIn.Statement (.ldst block) := rfl

theorem FramesIn.rdst : FramesIn.Statement .rdst := rfl

theorem FramesIn.qr (a b c d : Reg) : FramesIn.Statement (.qr a b c d) := rfl

theorem FramesIn.cround : FramesIn.Statement .cround := rfl

theorem FramesIn.rround : FramesIn.Statement .rround := rfl

theorem FramesIn.dround : FramesIn.Statement .dround := rfl

theorem FramesIn.core : FramesIn.Statement .core := rfl

theorem FramesIn.hash : FramesIn.Statement .hash := rfl

theorem FramesIn.add (rd rs1 rs2 : Reg) : FramesIn.Statement (.add rd rs1 rs2) := rfl

theorem FramesIn.xor (rd rs1 rs2 : Reg) : FramesIn.Statement (.xor rd rs1 rs2) := rfl

theorem FramesIn.rotl (rd rs1 : Reg) (n : Fin 32) : FramesIn.Statement (.rotl rd rs1 n) := rfl

end Sys2Proof.Laws
end

