-- ==== Sys2Proof/Laws/Run.lean ====
section
/-! SUPPORT. Runs of several steps (Host/Core.lean's `run`): one more step, and one run after another. -/

namespace Sys2Proof.Machine

/-- A run whose first step answers a next state goes on from that state. -/
theorem run_of_next {M : Host.Core} {s t : M.State} (k : Nat) (h : M.step s = .next t) :
    M.run (k + 1) s = M.run k t := by
  rw [Host.Core.run.eq_def]
  simp only [h]

/-- A run of a + b steps is a run of b steps from where the run of a steps ends. -/
theorem run_add {M : Host.Core} {a : Nat} (b : Nat) {s t : M.State} (h : M.run a s = .next t) :
    M.run (a + b) s = M.run b t := by
  induction a generalizing s with
  | zero =>
    rw [Host.Core.run.eq_def] at h
    cases h
    rw [Nat.zero_add]
  | succ a ih =>
    cases hs : M.step s with
    | next u =>
      rw [run_of_next a hs] at h
      rw [Nat.succ_add, run_of_next (a + b) hs]
      exact ih h
    | fault f =>
      rw [Host.Core.run.eq_def] at h
      simp only [hs] at h
      cases h
    | refused r =>
      rw [Host.Core.run.eq_def] at h
      simp only [hs] at h
      cases h

/-- A step of the engine as the first step of a run. -/
theorem core_run_of_next {s t : State} (k : Nat) (h : step s = .next t) :
    Sys2Proof.core.run (k + 1) s = Sys2Proof.core.run k t :=
  run_of_next (M := Sys2Proof.core) k h

end Sys2Proof.Machine
end

