-- ==== Sys2Proof/Tests/Slice0.lean ====
section
/-! SUPPORT. Tests. Every expected value is the spec's: 95_test_vectors.md, the examples of 40_alu.md,
41_rounds.md and 42_keystream.md, or the encodings of 30_encoding.md written out by hand. The witnesses
at the end show that each statement's hypotheses can be met together. -/

namespace Sys2Proof.Tests

-- One test after another: side by side, the checking threads' stacks fill the memory.
set_option Elab.async false

open Sys2Proof Sys2Proof.Machine

/-! ## Helpers -/

/-- What a next state shows through `f`. -/
def see {α : Type} (f : State → α) : Host.Outcome State Fault Refusal → Option α
  | .next s => some (f s)
  | .fault _ => none
  | .refused _ => none

/-- A next state that shows `v` is a next state. -/
theorem of_see {α : Type} {f : State → α} {o : Host.Outcome State Fault Refusal} {v : α}
    (h : see f o = some v) : ∃ t, o = .next t ∧ f t = v := by
  cases o with
  | next s => exact ⟨s, rfl, by simpa [see] using h⟩
  | fault f => simp [see] at h
  | refused r => simp [see] at h

/-- The reset state with some words of x written. -/
def regs (ws : List (Reg × Word)) : State := ws.foldl (fun s p => s.setReg p.1 p.2) State.reset

/-- The matrix x[i] = i of 95_test_vectors.md section 2.4. -/
def counting (cfg : Config) : State :=
  (State.resetWith cfg).setX (Vector.ofFn fun i : Fin 16 => BitVec.ofNat 32 i.val)

/-- The scenario key, "this is 32-byte key for salsa 20" (95_test_vectors.md section 3.1). -/
def scenarioKey : Bytes :=
  [0x74, 0x68, 0x69, 0x73, 0x20, 0x69, 0x73, 0x20, 0x33, 0x32, 0x2d, 0x62, 0x79, 0x74, 0x65, 0x20,
   0x6b, 0x65, 0x79, 0x20, 0x66, 0x6f, 0x72, 0x20, 0x73, 0x61, 0x6c, 0x73, 0x61, 0x20, 0x32, 0x30]

/-- The scenario nonce, "rd64bits". -/
def scenarioNonce : Bytes := [0x72, 0x64, 0x36, 0x34, 0x62, 0x69, 0x74, 0x73]

/-- The scenario instance at a counter value. -/
def scenario (cfg : Config) (c : BitVec 64) : State :=
  ((State.resetWith cfg).makeInstance (byteVector 32 scenarioKey) (byteVector 8 scenarioNonce)).setCtr c

/-- The scenario instance after the block at counter 2^64 − 1 has been used. -/
def exhausted : State := { scenario Config.default 0 with exh := true }

/-! ## Well-formedness: each check refuses an ill-formed term -/

/-- One byte more than a frame can carry (R71). -/
def tooLong : Bytes := List.replicate (2 ^ 64) 0

theorem frameFits_tooLong : frameFits tooLong = false := by
  rw [frameFits, tooLong, List.length_replicate]
  decide

theorem test_wf_refuses_long_key : (Instr.construct tooLong []).wf = false := by
  simp [Instr.wf, Instr.frames, frameFits_tooLong]

theorem test_wf_refuses_long_nonce : (Instr.construct [] tooLong).wf = false := by
  simp [Instr.wf, Instr.frames, frameFits_tooLong]

theorem test_wf_refuses_long_message : (Instr.encrypt tooLong).wf = false := by
  simp [Instr.wf, Instr.frames, frameFits_tooLong]

theorem test_wf_refuses_long_counter : (Instr.setctr tooLong).wf = false := by
  simp [Instr.wf, Instr.frames, frameFits_tooLong]

theorem test_wf_refuses_long_block : (Instr.ldst tooLong).wf = false := by
  simp [Instr.wf, Instr.frames, frameFits_tooLong]

theorem test_wf_accepts_short_frames : (Instr.construct scenarioKey scenarioNonce).wf = true := by decide

/-! ## Decoding: words written out from R73 to R75, as channel bytes -/

theorem test_decode_construct :
    decode [0x01, 0, 0, 0, 1, 0, 0, 0, 0, 0, 0, 0, 0xAA, 2, 0, 0, 0, 0, 0, 0, 0, 0xBB, 0xCC] =
      .command (.legal (.construct [0xAA] [0xBB, 0xCC])) [] := by decide

theorem test_decode_encrypt :
    decode [0x02, 0, 0, 0, 0, 0, 0, 0, 0, 0, 0, 0, 0x04] = .command (.legal (.encrypt [])) [0x04] := by
  decide

theorem test_decode_setctr :
    decode [0x03, 0, 0, 0, 8, 0, 0, 0, 0, 0, 0, 0, 2, 0, 0, 0, 1, 0, 0, 0] =
      .command (.legal (.setctr [2, 0, 0, 0, 1, 0, 0, 0])) [] := by decide

theorem test_decode_ldst :
    decode [0x10, 0, 0, 0, 2, 0, 0, 0, 0, 0, 0, 0, 7, 8] = .command (.legal (.ldst [7, 8])) [] := by decide

theorem test_decode_format_n :
    decodeHeader 0x00000001 = .ok .construct ∧ decodeHeader 0x00000002 = .ok .encrypt ∧
    decodeHeader 0x00000003 = .ok .setctr ∧ decodeHeader 0x00000004 = .ok .getctr ∧
    decodeHeader 0x00000005 = .ok .getstat ∧ decodeHeader 0x00000010 = .ok .ldst ∧
    decodeHeader 0x00000011 = .ok .rdst ∧ decodeHeader 0x00000021 = .ok .cround ∧
    decodeHeader 0x00000022 = .ok .rround ∧ decodeHeader 0x00000023 = .ok .dround ∧
    decodeHeader 0x00000024 = .ok .core ∧ decodeHeader 0x00000025 = .ok .hash := by decide

theorem test_decode_qr :
    decodeHeader 0x00c84020 = .ok (.qr 0 4 8 12) ∧ decodeHeader 0x00ffff20 = .ok (.qr 15 15 15 15) ∧
    decodeHeader 0x00ea6220 = .ok (.qr 2 6 10 14) := by decide

theorem test_decode_alu :
    decodeHeader 0x00021330 = .ok (.add 3 1 2) ∧ decodeHeader 0x000fff31 = .ok (.xor 15 15 15) ∧
    decodeHeader 0x01f02132 = .ok (.rotl 1 2 31) ∧ decodeHeader 0x00002132 = .ok (.rotl 1 2 0) := by decide

theorem test_decode_unassigned :
    [0x00000000, 0x00000006, 0x0000000f, 0x00000012, 0x00000026, 0x00000033, 0x000000ff].all
      (fun w => decodeHeader w == .error .unassignedOpcode) = true := by decide

theorem test_decode_reserved_bits :
    [0x00000101, 0x80000002, 0x01c84020, 0x00121330, 0x00712132, 0x02702132].all
      (fun w => decodeHeader w == .error .reservedBits) = true := by decide

theorem test_encode_add : encode (.add 3 1 2) = [0x30, 0x13, 0x02, 0x00] := by decide

/-- 95_test_vectors.md program P3, command 4. -/
theorem test_encode_encrypt :
    encode (.encrypt [0x61, 0x62, 0x63]) = [0x02, 0, 0, 0, 3, 0, 0, 0, 0, 0, 0, 0, 0x61, 0x62, 0x63] := by
  decide

/-- A command whose bytes have not all arrived. -/
theorem test_decode_incomplete : decode [0x02, 0, 0, 0, 3, 0, 0, 0, 0, 0, 0, 0, 0x61] = .incomplete := by
  decide

theorem test_no_two_rows_overlap :
    opcodeTable.Pairwise fun a b => a.pattern &&& b.mask ≠ b.pattern &&& a.mask := by decide

/-! ## ALU commands (95_test_vectors.md section 2.2) -/

theorem test_add_wraps :
    see (·.reg 3) (exec (.add 3 1 2) (regs [(1, 0xffffffff), (2, 1)])) = some 0 := by decide

theorem test_add_doubles : see (·.reg 5) (exec (.add 5 5 5) (regs [(5, 0x80000000)])) = some 0 := by decide

theorem test_xor : see (·.reg 3) (exec (.xor 3 1 2) (regs [(1, 0x12345678), (2, 0x9abcdef0)])) =
    some 0x88888888 := by decide

theorem test_xor_clears : see (·.reg 7) (exec (.clr 7) (regs [(7, 0xdeadbeef)])) = some 0 := by decide

theorem test_rotl : see (·.reg 1) (exec (.rotl 1 2 7) (regs [(2, 0x12345678)])) = some 0x1a2b3c09 := by
  decide

theorem test_rotl_by_31_and_0 :
    see (·.reg 1) (exec (.rotl 1 2 31) (regs [(2, 0x12345678)])) = some 0x091a2b3c ∧
    see (·.reg 1) (exec (.mov 1 2) (regs [(2, 0x12345678)])) = some 0x12345678 := by decide

/-! ## Quarter-round and rounds (95_test_vectors.md sections 2.3 to 2.5) -/

theorem test_quarter_round :
    quarterRound 0x61707865 0x3320646e 0x79622d32 0x6b206574 =
      (0x4fc4c8fd, 0x7b4e8888, 0x0763f68b, 0x24c21522) ∧
    quarterRoundInv 0x981e8457 0x00000282 0x00050603 0xa110a004 = (1, 2, 3, 4) := by decide

theorem test_qr :
    see (fun s => [s.reg 4, s.reg 8, s.reg 12, s.reg 0]) (exec (.qr 4 8 12 0) (regs [(0, 1)])) =
      some [0x00048044, 0x00000080, 0x00010000, 0x20100001] := by decide

theorem test_qr_alias :
    see (fun s => (s.reg 0, s.lastErr, s.sending)) (exec (.qr 0 4 8 4) (regs [(0, 1)])) =
      some (1, 0x08, [0x08, 0, 0, 0]) := by decide

theorem test_cround_plain :
    see (·.x.toList) (exec .cround (counting ⟨.plain⟩)) =
      some [0x20560736, 0x305709be, 0x40580c4a, 0x50610ed2, 0x00000604, 0x00000705, 0x00000806, 0x00000907,
        0x000c0808, 0x000e0c09, 0x0010100a, 0x0012140b, 0x81c1800d, 0xc261c00c, 0x0302000c, 0x43a2400d] := by
  decide +kernel

theorem test_cround_diagonal :
    see (·.x.toList) (exec .cround (counting ⟨.diagonal⟩)) =
      some [0x20560736, 0xc3e2c001, 0x00103002, 0x00000d03, 0x00000604, 0x703b0fa6, 0x07020004, 0x001a2407,
        0x000c0808, 0x00000309, 0xc0181c42, 0x46214008, 0x81c1800d, 0x00061c0d, 0x0000080e, 0x903d18e2] := by
  decide +kernel

theorem test_rround :
    see (·.x.toList) (exec .rround (counting ⟨.plain⟩)) =
      some [0x881581cd, 0x00000181, 0x00030202, 0x60706003, 0x2351a005, 0xd8308d6f, 0x00000486, 0x00091607,
        0x00132a08, 0x6672600b, 0x284d9a1c, 0x0000098b, 0x00000e8c, 0x001d360d, 0xa893200d, 0x586aa2ce] := by
  decide +kernel

theorem test_dround_plain :
    see (·.x.toList) (exec .dround (counting ⟨.plain⟩)) =
      some [0x68e21598, 0x6bdc0d86, 0x24717552, 0xe03a1cdb, 0xb571a7a1, 0x1aa30d66, 0x00068c86, 0x0d271f07,
        0x58572216, 0x67fa20e7, 0x0be7114f, 0x0f1c1d8b, 0xd3e18cae, 0xc5f8b623, 0x4b583337, 0xe6ca054e] := by
  decide +kernel

theorem test_dround_diagonal :
    see (·.reg 1) (exec .dround (counting ⟨.diagonal⟩)) = some 0xe8e8dc91 := by decide +kernel

theorem test_core_plain :
    see (fun s => [s.reg 0, s.reg 1, s.reg 15]) (exec .core (counting ⟨.plain⟩)) =
      some [0xc8932979, 0x11ff7d5c, 0x62d993fe] := by decide +kernel

theorem test_core_diagonal :
    see (fun s => [s.reg 0, s.reg 15]) (exec .core (counting ⟨.diagonal⟩)) =
      some [0xe1a0ebe0, 0x5fc70ce1] := by decide +kernel

theorem test_hash_plain :
    see (fun s => [s.reg 1, s.reg 15]) (exec .hash (counting ⟨.plain⟩)) =
      some [0x11ff7d5d, 0x62d9940d] := by decide +kernel

theorem test_hash_diagonal :
    see (·.reg 2) (exec .hash (counting ⟨.diagonal⟩)) = some 0x1ec19924 := by decide +kernel

/-! ## Loading and reading the matrix (95_test_vectors.md section 2.6) -/

theorem test_ldst :
    see (fun s => [s.reg 0, s.reg 1, s.reg 15])
      (exec (.ldst ((List.range 64).map (BitVec.ofNat 8))) State.reset) =
      some [0x03020100, 0x07060504, 0x3f3e3d3c] := by decide

theorem test_ldst_63_bytes :
    see (fun s => (s.lastErr, s.sending)) (exec (.ldst (zeros 63)) State.reset) =
      some (0x07, [0x07, 0, 0, 0]) := by decide

theorem test_rdst :
    see (fun s => s.sending.take 20) (exec .rdst (regs [(0, 0x03020100), (1, 0x07060504)])) =
      some [0, 0, 0, 0, 64, 0, 0, 0, 0, 0, 0, 0, 0, 1, 2, 3, 4, 5, 6, 7] := by decide

/-! ## Instance and stream commands (95_test_vectors.md sections 2.8 and 3) -/

theorem test_construct :
    see (fun s => (s.key.toList, s.nonce.toList, s.valid, s.ctr))
      (exec (.construct scenarioKey scenarioNonce) exhausted) = some (scenarioKey, scenarioNonce, true, 0) ∧
    see (fun s => (s.exh, s.sending)) (exec (.construct scenarioKey scenarioNonce) exhausted) =
      some (false, [0, 0, 0, 0]) := by decide +kernel

theorem test_construct_failed :
    see (fun s => (s.valid, s.ctr, s.key.toList, s.lastErr))
      (exec (.construct (zeros 32) (zeros 7)) (scenario Config.default 7)) =
      some (false, 0, zeros 32, 0x02) := by decide

theorem test_encrypt_abc :
    see (fun s => (s.ctr, s.sending))
      (exec (.encrypt [0x61, 0x62, 0x63]) (scenario ⟨.plain⟩ 5)) =
      some (6, [0, 0, 0, 0, 3, 0, 0, 0, 0, 0, 0, 0, 0x18, 0x2a, 0x5d]) ∧
    see (fun s => s.sending.drop 12) (exec (.encrypt [0x61, 0x62, 0x63]) (scenario ⟨.diagonal⟩ 5)) =
      some [0x7b, 0xc3, 0xff] := by decide +kernel

theorem test_encrypt_last_block :
    see (fun s => (s.ctr, s.exh, s.sending.length))
      (exec (.encrypt (zeros 64)) (scenario Config.default 0xffffffffffffffff)) = some (0, true, 76) ∧
    see (fun s => (s.ctr, s.exh, s.lastErr, s.sending))
      (exec (.encrypt (zeros 65)) (scenario Config.default 0xffffffffffffffff)) =
      some (0xffffffffffffffff, false, 0x04, [0x04, 0, 0, 0]) := by decide +kernel

theorem test_setctr :
    see (fun s => (s.ctr, s.exh)) (exec (.setctr [2, 0, 0, 0, 1, 0, 0, 0]) exhausted) =
      some (0x0000000100000002, false) := by decide

theorem test_setctr_errors :
    see (·.lastErr) (exec (.setctr (zeros 7)) State.reset) = some 0x07 ∧
    see (·.lastErr) (exec (.setctr (zeros 8)) State.reset) = some 0x05 := by decide

theorem test_getctr :
    see (·.sending) (exec .getctr (scenario Config.default 0x0000000100000002)) =
      some [0, 0, 0, 0, 8, 0, 0, 0, 0, 0, 0, 0, 2, 0, 0, 0, 1, 0, 0, 0] ∧
    see (·.sending) (exec .getctr State.reset) = some [0x05, 0, 0, 0] := by decide

theorem test_getstat :
    see (fun s => (s.lastErr, s.sending.drop 12)) (exec .getstat { exhausted with lastErr := 0x04 }) =
      some (0x04, [0x03, 0x04, 0, 0]) ∧
    see (·.sending) (exec .getstat State.reset) =
      some [0, 0, 0, 0, 4, 0, 0, 0, 0, 0, 0, 0, 0, 0, 0, 0] := by decide

/-- 95_test_vectors.md section 3.1: the words of the scenario's initial block. -/
theorem test_initial_matrix :
    (matrixOfBytes (initBlock (byteVector 32 scenarioKey) (byteVector 8 scenarioNonce) 0)).toList =
      [0x61707865, 0x73696874, 0x20736920, 0x622d3233, 0x20657479, 0x3320646e, 0x34366472, 0x73746962,
       0x00000000, 0x00000000, 0x79622d32, 0x2079656b, 0x20726f66, 0x736c6173, 0x30322061, 0x6b206574] := by
  decide +kernel

/-- 93_implementation_defined.md G6, 95_test_vectors.md section 4: the published expansion example. -/
theorem test_published_expansion :
    (keyBlock .diagonal
      (Vector.ofFn fun i : Fin 32 => BitVec.ofNat 8 (if i.val < 16 then i.val + 1 else i.val + 185))
      (Vector.ofFn fun i : Fin 8 => BitVec.ofNat 8 (i.val + 101)) 0x74737271706f6e6d).take 8 =
      [69, 37, 68, 39, 41, 15, 107, 193] := by decide +kernel

/-! ## The step -/

theorem test_step_illegal_header :
    see (fun s => (s.lastErr, s.sending, s.cmdIn)) (step (State.reset.hostSend [0, 0, 0, 0, 0x21])) =
      some (0x06, [0x06, 0, 0, 0], [0x21]) := by decide

theorem test_step_waits :
    see (fun s => s) (step (State.reset.hostSend [0x21, 0, 0])) = some (State.reset.hostSend [0x21, 0, 0]) := by
  decide +kernel

/-- R70: the response goes out before the command behind it is read. -/
theorem test_step_sends_response_first :
    see (fun s => (s.sending, s.respOut, s.cmdIn))
      (step { State.reset.hostSend [0x05, 0, 0, 0] with sending := [0x06, 0, 0, 0] }) =
      some ([0, 0, 0], [0x06], [0x05, 0, 0, 0]) := by decide

/-- R230: the registers reset, the rest of the response dropped, the channel emptied. -/
theorem test_step_in_reset :
    see (fun s => (s.valid, s.ctr, s.cmdIn, s.resetPin))
      (step (((scenario Config.default 7).hostSend [0x21]).setResetPin true)) =
      some (false, 0, [], true) ∧
    see (fun s => (s.sending, s.respOut))
      (step { exhausted with sending := [0, 0], respOut := [0x05, 0], resetPin := true }) =
      some ([], [0x05, 0]) := by decide

/-- 95_test_vectors.md program P4, commands 13 to 15, after a reset: an illegal header is a command of a run,
and the run ends with every response sent. -/
theorem test_run_with_illegal_header :
    (match runFromReset Config.default [.illegal 0, .legal (.qr 0 0 8 12), .legal .getstat] with
      | .next r => some (r.responses, r.final.sending, r.final.lastErr)
      | .fault _ => none
      | .refused _ => none) =
      some ([[0x06, 0, 0, 0], [0x08, 0, 0, 0], [0, 0, 0, 0, 4, 0, 0, 0, 0, 0, 0, 0, 0, 0x08, 0, 0]],
        [], 0x08) := by decide +kernel

theorem test_table_word_runs :
    decodeTableWord 32 0x00000001 = some (.construct [] []) ∧ decodeTableWord 32 0x00121330 = none ∧
    see (fun s => (s.cmdIn, s.lastErr)) (step (State.reset.withFetchWord 32 0x00000001)) =
      some ([], 0x01) := by decide

/-! ## The assembler (R79, R80) -/

theorem test_assemble_byte_strings :
    assembleLine "CONSTRUCT \"ab\\\"\", h\"0a1B\" * 2 ; c".toList =
      .ok (some (.construct [0x61, 0x62, 0x22] [0x0a, 0x1b, 0x0a, 0x1b])) ∧
    assembleLine "ENCRYPT zeros(3)".toList = .ok (some (.encrypt [0, 0, 0])) ∧
    assembleLine "  ; only a comment".toList = .ok none := by decide +kernel

/-- 95_test_vectors.md program P1, command 1: the brace form. -/
theorem test_assemble_words :
    assembleLine ("LDST ".toList ++ [lbrace] ++
        ("61707865, 00000000, 61707865, 0, 3320646e, 0, 3320646e, 0, 79622d32, 0, " ++
          "79622d32, 0, 6b206574, 0, 6b206574, 0x10").toList ++ [rbrace]) =
      .ok (some (.ldst ([0x61707865, 0, 0x61707865, 0, 0x3320646e, 0, 0x3320646e, 0, 0x79622d32, 0,
        0x79622d32, 0, 0x6b206574, 0, 0x6b206574, 0x10].flatMap bytes32))) := by decide +kernel

theorem test_assemble_refuses :
    assembleLine "ADD x1, x2".toList = .error .badOperands ∧
    assembleLine "SUB x1, x2, x3".toList = .error .unknownMnemonic ∧
    assembleLine "ENCRYPT h\"0a1\"".toList = .error .badToken := by decide +kernel

theorem test_disassemble :
    disassemble (.rotl 15 2 31) = "ROTL x15, x2, 31".toList ∧
    disassemble (.encrypt [0x0a, 0xf1]) = "ENCRYPT h\"0af1\"".toList ∧
    disassemble (.mov 1 2) = "ROTL x1, x2, 0".toList ∧ disassemble .hash = "HASH".toList := by decide +kernel

/-! ## Witnesses: each statement's hypotheses met together

One theorem for each statement that has hypotheses, named after it, with each of its clauses at a boundary
value. -/

theorem witness_AssertedResetInputResetsTheEngine :
    (exhausted.setResetPin true).resetPin = true ∧ exhausted.setResetPin true ≠ State.reset := by
  decide +kernel

/-- GETCTR's response of 20 bytes, cut before its first byte, inside it, and after its last. -/
theorem witness_ResetCutsTheResponseShort :
    (exhausted.hostSend [0x04, 0, 0, 0, 0x21]).resetPin = false ∧
    (exhausted.hostSend [0x04, 0, 0, 0, 0x21]).sending = [] ∧
    decode (exhausted.hostSend [0x04, 0, 0, 0, 0x21]).cmdIn = .command (.legal .getctr) [0x21] ∧
    ∃ t, exec .getctr { exhausted.hostSend [0x04, 0, 0, 0, 0x21] with cmdIn := [0x21] } = .next t ∧
      (decide (0 ≤ t.sending.length), decide (1 ≤ t.sending.length), decide (20 ≤ t.sending.length)) =
        (true, true, true) :=
  ⟨by decide +kernel, by decide +kernel, by decide +kernel, of_see (by decide +kernel)⟩

theorem witness_ResponseIsSentBeforeTheNextCommand :
    ({ exhausted with sending := [0x05, 0, 0, 0] } : State).resetPin = false ∧
    ({ exhausted with sending := [0x05, 0, 0, 0] } : State).sending = 0x05 :: [0, 0, 0] := by decide +kernel

/-- The longest frame there is (R71). -/
def longest : Bytes := List.replicate (2 ^ 64 - 1) 0

theorem frameFits_longest : frameFits longest = true := by
  rw [frameFits, longest, List.length_replicate]
  decide

/-- The longest frame fits, and every selector and amount at its greatest value is well-formed. -/
theorem witness_DecodeOfEncodeIsTheCommand :
    (Instr.encrypt longest).wf = true ∧ (Instr.encrypt []).wf = true ∧
    (Instr.construct scenarioKey scenarioNonce).wf = true ∧ (Instr.qr 15 15 15 15).wf = true ∧
    (Instr.rotl 15 15 31).wf = true := by
  refine ⟨?_, by decide, by decide, by decide, by decide⟩
  simp [Instr.wf, Instr.frames, frameFits_longest]

theorem witness_LegalCommandHasOneEncoding :
    decode [0x32, 0xff, 0xf0, 0x01, 0x21] = .command (.legal (.rotl 15 15 31)) [0x21] ∧
    decode [0x02, 0, 0, 0, 0, 0, 0, 0, 0, 0, 0, 0] = .command (.legal (.encrypt [])) [] := by decide

theorem witness_LegalHeadersAreTheOpcodeTable :
    decodeHeader 0x01f0ff32 = .ok (.rotl 15 15 31) ∧
    opcodeTable.all (fun row => (row.pattern ||| ~~~row.mask) &&& row.mask == row.pattern) = true := by decide

/-- An unassigned opcode at each end of each gap; then for each format the least and the greatest word
with a reserved bit set. -/
theorem witness_IllegalHeaderIsAnsweredAndChangesNothing :
    (exhausted.hostSend (bytes32 0x00121330 ++ [0x21])).resetPin = false ∧
    (exhausted.hostSend (bytes32 0x00121330 ++ [0x21])).sending = [] ∧
    (exhausted.hostSend (bytes32 0x00121330 ++ [0x21])).cmdIn = bytes32 0x00121330 ++ [0x21] ∧
    ([0x00, 0x06, 0x0f, 0x12, 0x1f, 0x26, 0x2f, 0x33, 0xffffffff] : List Word).all (fun w => w.toNat % 2 ^ 8 ∉
      [0x01, 0x02, 0x03, 0x04, 0x05, 0x10, 0x11, 0x20, 0x21, 0x22, 0x23, 0x24, 0x25, 0x30, 0x31, 0x32]) ∧
    ([0x00000101, 0x80000001, 0xffffff25] : List Word).all (fun w => w.toNat % 2 ^ 8 ∈
      [0x01, 0x02, 0x03, 0x04, 0x05, 0x10, 0x11, 0x21, 0x22, 0x23, 0x24, 0x25] ∧ w.toNat / 2 ^ 8 ≠ 0) ∧
    ([0x01000020, 0xffffff20] : List Word).all (fun w => w.toNat % 2 ^ 8 = 0x20 ∧ w.toNat / 2 ^ 24 ≠ 0) ∧
    ([0x00100030, 0xffffff31] : List Word).all (fun w =>
      w.toNat % 2 ^ 8 ∈ [0x30, 0x31] ∧ w.toNat / 2 ^ 20 ≠ 0) ∧
    ([0x02000032, 0x00010032, 0x000f0032, 0xfe00ff32] : List Word).all (fun w =>
      w.toNat % 2 ^ 8 = 0x32 ∧ (w.toNat / 2 ^ 25 ≠ 0 ∨ w.toNat / 2 ^ 16 % 2 ^ 4 ≠ 0)) := by decide +kernel

theorem witness_StepExecutesTheDecodedCommand :
    (exhausted.hostSend [0x20, 0x40, 0xc8, 0x00, 0x21]).resetPin = false ∧
    (exhausted.hostSend [0x20, 0x40, 0xc8, 0x00, 0x21]).sending = [] ∧
    decode (exhausted.hostSend [0x20, 0x40, 0xc8, 0x00, 0x21]).cmdIn =
      .command (.legal (.qr 0 4 8 12)) [0x21] := by decide +kernel

theorem witness_SentCommandCompletesInOneStep :
    let i : Instr := .construct scenarioKey scenarioNonce
    (State.reset.hostSend (encode i ++ [0x21])).resetPin = false ∧
    (State.reset.hostSend (encode i ++ [0x21])).sending = [] ∧ i.wf = true ∧
    (State.reset.hostSend (encode i ++ [0x21])).cmdIn = encode i ++ [0x21] := by decide +kernel

/-- One byte is missing; all of them are. -/
theorem witness_EngineWaitsForMissingBytes :
    State.reset.resetPin = false ∧
    State.reset.sending = [] ∧ (Instr.construct [] [7]).wf = true ∧
    (State.reset.hostSend (encode (.construct [] [7])).dropLast).cmdIn ++ [7] = encode (.construct [] [7]) ∧
    State.reset.cmdIn ++ encode (.construct [] [7]) = encode (.construct [] [7]) ∧
    encode (.construct [] [7]) ≠ [] := by decide +kernel

/-- The invariant with EXH = 1, and a step from there; it holds in the reset state with R36's values. -/
theorem witness_EveryStepKeepsTheInvariant :
    (exhausted.hostSend [0x05, 0, 0, 0]).Inv ∧ State.reset.Inv ∧
    ∃ t, step (exhausted.hostSend [0x05, 0, 0, 0]) = .next t ∧ t.cmdIn = [] :=
  ⟨⟨by decide +kernel, by decide +kernel, by decide +kernel⟩,
    ⟨by decide +kernel, by decide +kernel, by decide +kernel⟩, of_see (by decide +kernel)⟩

theorem witness_NoStepChangesColumnOrder :
    ∃ t, step ((counting ⟨.diagonal⟩).hostSend [0x21, 0, 0, 0]) = .next t ∧
      t.cfg.columnOrder = .diagonal := of_see (by decide +kernel)

/-- A list of two commands, and the empty list. -/
theorem witness_ChannelRunsCommandsInTheOrderSent :
    let is : List Instr := [.construct scenarioKey scenarioNonce, .encrypt [0x61]]
    (State.reset.hostSend (is.flatMap encode ++ [0x21])).resetPin = false ∧
    (State.reset.hostSend (is.flatMap encode ++ [0x21])).sending = [] ∧ (∀ i ∈ is, i.wf = true) ∧
    (State.reset.hostSend (is.flatMap encode ++ [0x21])).cmdIn = is.flatMap encode ++ [0x21] ∧
    State.reset.cmdIn = ([] : List Instr).flatMap encode ++ [] := by decide +kernel

/-- An illegal header among legal commands; a legal word is no illegal header. -/
theorem witness_RunAfterResetEndsWithEveryResponseSent :
    (∀ c ∈ ([.legal (.construct scenarioKey scenarioNonce), .illegal 0x00000101, .legal .getctr] : List Cmd),
      c.wf = true) ∧ (Cmd.illegal 0x00000001).wf = false := by decide +kernel

/-- A command that succeeds with a frame, and one that ends in an error. -/
theorem witness_EachCommandSendsOneResponse :
    (∃ t, exec .getstat State.reset = .next t ∧ t.sending.length = 16) ∧
    (∃ t, exec .getctr State.reset = .next t ∧ t.sending = [0x05, 0, 0, 0]) :=
  ⟨of_see (by decide +kernel), of_see (by decide +kernel)⟩

/-- A success, an error of another command, a failed CONSTRUCT that clears a held key. -/
theorem witness_AnErrorChangesOnlyLastErr :
    (∃ t, exec (.add 3 1 2) (scenario Config.default 7) = .next t ∧ t.lastErr = 0) ∧
    (∃ t, exec (.qr 0 4 8 0) (scenario Config.default 7) = .next t ∧ t.lastErr = 0x08) ∧
    (∃ t, exec (.construct (zeros 31) (zeros 8)) (scenario Config.default 7) = .next t ∧ t.lastErr = 0x01) :=
  ⟨of_see (by decide +kernel), of_see (by decide +kernel), of_see (by decide +kernel)⟩

/-- GETSTAT after an error, another command, and an illegal header. -/
theorem witness_LastErrIsTheCodeOfTheLastCommandButGetstat :
    (∃ t, execCmd (.legal .getstat) { State.reset with lastErr := 0x04 } = .next t ∧ t.lastErr = 0x04) ∧
    (∃ t, execCmd (.legal .getctr) { State.reset with lastErr := 0x04 } = .next t ∧ t.lastErr = 0x05) ∧
    (∃ t, execCmd (.illegal 0) { State.reset with lastErr := 0x04 } = .next t ∧ t.lastErr = 0x06) :=
  ⟨of_see (by decide +kernel), of_see (by decide +kernel), of_see (by decide +kernel)⟩

/-- A command outside each list, and one form of each clause. -/
theorem witness_OnlyTheListedCommandsWriteEachRegister :
    (∃ t, exec .core (scenario Config.default 7) = .next t ∧ t.ctr = 7) ∧
    Header.core ∉ [Header.construct] ∧ Header.core ∉ [Header.construct, .encrypt, .setctr] ∧
    (∃ t, exec .rdst (counting ⟨.plain⟩) = .next t ∧ t.reg 15 = 15) ∧
    (∃ t, exec (.qr 12 13 14 15) (counting ⟨.plain⟩) = .next t ∧ t.reg 0 = 0) ∧
    (∃ t, exec (.add 15 15 15) (counting ⟨.plain⟩) = .next t ∧ t.reg 14 = 14) ∧
    (∃ t, exec (.rotl 0 15 31) (counting ⟨.plain⟩) = .next t ∧ t.reg 15 = 15) :=
  ⟨of_see (by decide +kernel), by decide, by decide, of_see (by decide +kernel), of_see (by decide +kernel),
    of_see (by decide +kernel), of_see (by decide +kernel)⟩

/-- SETCTR, CONSTRUCT and the wrap each lower CTR. -/
theorem witness_CtrDecreasesOnlyBySetctrConstructOrTheWrap :
    (∃ t, exec .resetctr (scenario Config.default 1) = .next t ∧ t.ctr = 0) ∧
    (∃ t, exec (.construct scenarioKey scenarioNonce) (scenario Config.default 1) = .next t ∧ t.ctr = 0) ∧
    (∃ t, exec (.encrypt [0]) (scenario Config.default 0xffffffffffffffff) = .next t ∧ t.ctr = 0) :=
  ⟨of_see (by decide +kernel), of_see (by decide +kernel), of_see (by decide +kernel)⟩

theorem witness_ReadsHaveNoSideEffectAndLoadsAreIdempotent :
    (∃ t, exec .getstat exhausted = .next t ∧ t.exh = true) ∧
    (∃ t, exec .getctr exhausted = .next t ∧ t.ctr = 0) ∧
    (∃ t, exec .rdst (counting ⟨.plain⟩) = .next t ∧ t.reg 1 = 1) ∧
    (∃ t, exec (.setctr (zeros 8)) exhausted = .next t ∧ t.exh = false) ∧
    (∃ t, exec (.ldst (zeros 64)) (counting ⟨.plain⟩) = .next t ∧ t.reg 1 = 0) :=
  ⟨of_see (by decide +kernel), of_see (by decide +kernel), of_see (by decide +kernel),
    of_see (by decide +kernel), of_see (by decide +kernel)⟩

/-- The amount at 1 and at 31. -/
theorem witness_RotlMovesEveryBit : 1 < 32 ∧ 31 < 32 ∧ 1 ≤ 1 ∧
    rotl32 0x80000001 1 = 0x00000003 ∧ rotl32 0x00000003 31 = 0x80000001 := by decide

/-- MOV and CLR answer; KEYSTREAM with one block left; RESETCTR with an instance. -/
theorem witness_PseudoInstructionsDoWhatTheirGroundsSay :
    (∃ t, exec (.mov 0 15) (counting ⟨.plain⟩) = .next t ∧ t.reg 0 = 15) ∧
    (∃ t, exec (.clr 15) (counting ⟨.plain⟩) = .next t ∧ t.reg 15 = 0) ∧
    (scenario Config.default 0xffffffffffffffff).valid = true ∧
    (64 + 63) / 64 ≤ (scenario Config.default 0xffffffffffffffff).blocksLeft := by
  refine ⟨of_see (by decide +kernel), of_see (by decide +kernel), ?_, ?_⟩ <;> decide +kernel

theorem witness_TwelveAluCommandsComputeTheQuarterRound : ([0, 4, 8, 12, 15] : List Reg).Nodup := by decide

theorem witness_QuarterRoundHasTheStatedInverse :
    quarterRound 1 2 3 4 = (0x981e8457, 0x00000282, 0x00050603, 0xa110a004) ∧
    quarterRoundInv 0x981e8457 0x00000282 0x00050603 0xa110a004 = (1, 2, 3, 4) := by decide

/-- The quarter-rounds of a round taken backwards. -/
theorem witness_LanesOfARoundAreIndependent : ([3, 2, 1, 0] : List (Fin 4)).Perm [0, 1, 2, 3] := by decide

/-- Distinct selectors, and a repeat in the last two. -/
theorem witness_QrTransformsFourDistinctWordsOrRefuses :
    ([15, 3, 7, 11] : List Reg).Nodup ∧ ¬ ([0, 4, 8, 8] : List Reg).Nodup := by decide

/-- 64 bytes, one fewer and one more; and a frame of 63 bytes on the channel. -/
theorem witness_LdstLoadsSixtyFourBytesOrRefuses :
    (zeros 64).length = 64 ∧ (zeros 63).length ≠ 64 ∧ (zeros 65).length ≠ 64 ∧
    (State.reset.hostSend (encode (.ldst (zeros 63)) ++ [0x21])).resetPin = false ∧
    (State.reset.hostSend (encode (.ldst (zeros 63)) ++ [0x21])).sending = [] ∧
    (State.reset.hostSend (encode (.ldst (zeros 63)) ++ [0x21])).cmdIn =
      encode (.ldst (zeros 63)) ++ [0x21] := by decide +kernel

/-- For each opcode with a format other than N, and one with N, a header word it says is legal and one it
says is not. -/
theorem witness_HeaderWords :
    (0x00000021 : Word).toNat / 2 ^ 8 = 0 ∧ (0x00000121 : Word).toNat / 2 ^ 8 ≠ 0 ∧
    (0x00ffff20 : Word).toNat / 2 ^ 24 = 0 ∧ (0x01000020 : Word).toNat / 2 ^ 24 ≠ 0 ∧
    (0x000fff30 : Word).toNat / 2 ^ 20 = 0 ∧ (0x00100030 : Word).toNat / 2 ^ 20 ≠ 0 ∧
    (0x01f0ff32 : Word).toNat / 2 ^ 25 = 0 ∧ (0x01f0ff32 : Word).toNat / 2 ^ 16 % 2 ^ 4 = 0 ∧
    (0x00010032 : Word).toNat / 2 ^ 16 % 2 ^ 4 ≠ 0 ∧
    (exhausted.hostSend (bytes32 0x00000121)).resetPin = false ∧
    (exhausted.hostSend (bytes32 0x00000121)).sending = [] ∧
    (exhausted.hostSend (bytes32 0x00000121)).cmdIn = bytes32 0x00000121 ++ [] := by decide +kernel

theorem witness_MatrixAndSixtyFourBytesAreInverse : (zeros 64).length = 64 := by decide

/-- The last two blocks, and two different blocks of them. -/
theorem witness_KeystreamIsTheBlocksAtDistinctCounters :
    (0xfffffffffffffffe : BitVec 64).toNat + 2 ≤ 2 ^ 64 ∧ (0 : Nat) < 2 ∧ (1 : Nat) < 2 := by decide

/-- Both lengths right; the key wrong; the nonce wrong; both wrong. -/
theorem witness_ConstructMakesOrDestroysTheInstance :
    ((zeros 32).length = 32 ∧ (zeros 8).length = 8) ∧ (zeros 31).length ≠ 32 ∧ (zeros 33).length ≠ 32 ∧
    (zeros 7).length ≠ 8 ∧ (zeros 9).length ≠ 8 := by decide

/-- No instance; one block too many; exactly the last block; the empty message of an exhausted instance. -/
theorem witness_EncryptXorsTheKeystreamOrRefuses :
    State.reset.valid = false ∧
    (scenario Config.default 0xffffffffffffffff).valid = true ∧
    (if (scenario Config.default 0xffffffffffffffff).exh then 0
      else 2 ^ 64 - (scenario Config.default 0xffffffffffffffff).ctr.toNat) < ((zeros 65).length + 63) / 64 ∧
    ((zeros 64).length + 63) / 64 ≤ (if (scenario Config.default 0xffffffffffffffff).exh then 0
      else 2 ^ 64 - (scenario Config.default 0xffffffffffffffff).ctr.toNat) ∧
    exhausted.valid = true ∧
    (([] : Bytes).length + 63) / 64 ≤ (if exhausted.exh then 0 else 2 ^ 64 - exhausted.ctr.toNat) ∧
    (if exhausted.exh then 0 else 2 ^ 64 - exhausted.ctr.toNat) < ((zeros 1).length + 63) / 64 := by
  decide +kernel

/-- The length wrong by one either way; right with no instance; right with one. -/
theorem witness_SetctrSetsTheCounterOrRefuses :
    (zeros 7).length ≠ 8 ∧ (zeros 9).length ≠ 8 ∧ (zeros 8).length = 8 ∧ State.reset.valid = false ∧
    exhausted.valid = true := by decide +kernel

theorem witness_GetctrEmitsTheCounterOrRefuses :
    State.reset.valid = false ∧ exhausted.valid = true ∧ (7 : Nat) < 8 := by decide +kernel

/-- The message fills the last block, and the later engine is exhausted. -/
theorem witness_DecryptionRecoversTheMessage :
    let s := scenario Config.default 0xffffffffffffffff
    s.valid = true ∧ s.exh = false ∧ ((zeros 64).length + 63) / 64 ≤ 2 ^ 64 - s.ctr.toNat ∧
    exhausted.valid = true ∧ exhausted.cfg = s.cfg ∧ exhausted.key = s.key ∧ exhausted.nonce = s.nonce := by
  decide +kernel

/-- Two engines that differ in x and in LAST_ERR. -/
theorem witness_EncryptDependsOnTheInstanceAlone :
    let s := scenario Config.default 5
    let s' := { s.setReg 3 7 with lastErr := 0x08 }
    (s'.cfg = s.cfg ∧ s'.key = s.key ∧ s'.nonce = s.nonce ∧ s'.ctr = s.ctr ∧ s'.exh = s.exh ∧
      s'.valid = s.valid ∧ s' ≠ s) ∧
    (∃ t, exec (.encrypt [0x61]) s = .next t ∧ t.ctr = 6) ∧
    (∃ t, exec (.encrypt [0x61]) s' = .next t ∧ t.ctr = 6) :=
  ⟨by decide +kernel, of_see (by decide +kernel), of_see (by decide +kernel)⟩

/-- The first chunk fills the last block and the second is empty; and two chunks well inside. -/
theorem witness_WholeBlockChunksEncryptLikeTheWhole :
    (scenario Config.default 0xffffffffffffffff).valid = true ∧
    (scenario Config.default 0xffffffffffffffff).exh = false ∧ (zeros 64).length % 64 = 0 ∧
    ((zeros 64 ++ []).length + 63) / 64 ≤
      2 ^ 64 - (scenario Config.default 0xffffffffffffffff).ctr.toNat ∧
    ((zeros 64 ++ zeros 1).length + 63) / 64 ≤ 2 ^ 64 - (scenario Config.default 5).ctr.toNat := by
  decide +kernel

theorem witness_NoCommandButEncryptRevealsTheKey :
    (∀ m, Instr.encrypt m ∉ [.getctr, .hash, .rdst]) ∧
    ∃ t, execAll [.getctr, .hash, .rdst] (scenario Config.default 5) = .next t ∧ t.ctr = 5 :=
  ⟨by simp, of_see (by decide +kernel)⟩

end Sys2Proof.Tests
end

/-! ## What a command can do to the registers (10_state.md R20 to R29) -/

namespace Sys2Proof.Machine

/-- The words of x a command can write (10_state.md R23). -/
def writtenWords : Instr → List Reg
  | .encrypt _ => List.finRange 16
  | .ldst _ => List.finRange 16
  | .qr a b c d => [a, b, c, d]
  | .cround => List.finRange 16
  | .rround => List.finRange 16
  | .dround => List.finRange 16
  | .core => List.finRange 16
  | .hash => List.finRange 16
  | .add rd _ _ => [rd]
  | .xor rd _ _ => [rd]
  | .rotl rd _ _ => [rd]
  | .construct _ _ => []
  | .setctr _ => []
  | .getctr => []
  | .getstat => []
  | .rdst => []

/-- `Effect s i t`: t is a state in which command i can leave the engine that held s, by the way the
command ends. `exec_effect` says that these are all the ways. -/
inductive Effect (s : State) : Instr → State → Prop
  /-- An error of a command other than CONSTRUCT (R203). -/
  | raised (i : Instr) (e : ErrCode) (he : e ∈ possibleErrors i) (hi : ∀ k n, i ≠ .construct k n) :
      Effect s i ((s.setLastErr e.code).send ⟨e.code, []⟩)
  /-- A failed CONSTRUCT (R167). -/
  | destroyed (k n : Bytes) (e : ErrCode) (he : e ∈ possibleErrors (.construct k n)) :
      Effect s (.construct k n) ((s.clearInstance.setLastErr e.code).send ⟨e.code, []⟩)
  /-- A successful CONSTRUCT (R167). -/
  | made (k n : Bytes) (key : Vector Byte 32) (nonce : Vector Byte 8) :
      Effect s (.construct k n)
        (((s.makeInstance key nonce).setLastErr ErrCode.ok.code).send ⟨ErrCode.ok.code, []⟩)
  /-- A successful ENCRYPT (R168). -/
  | encrypted (m out : Bytes) (hv : s.valid = true) (hn : nblocks m ≤ s.blocksLeft) :
      Effect s (.encrypt m)
        (((s.afterEncrypt (nblocks m)).setLastErr ErrCode.ok.code).send ⟨ErrCode.ok.code, [out]⟩)
  /-- A successful SETCTR (R170). -/
  | counterSet (v : Bytes) (c : BitVec 64) (hv : s.valid = true) :
      Effect s (.setctr v) (((s.setCtr c).setLastErr ErrCode.ok.code).send ⟨ErrCode.ok.code, []⟩)
  /-- GETSTAT (R172). -/
  | status (out : Bytes) : Effect s .getstat (s.send ⟨ErrCode.ok.code, [out]⟩)
  /-- Success of any other command: it writes words of x and no other register but LAST_ERR. -/
  | computed (i : Instr) (m : StateMatrix) (frames : List Bytes)
      (hi : i.header ∉ [.construct, .encrypt, .setctr, .getstat])
      (hm : ∀ r, r ∉ writtenWords i → m[r] = s.x[r]) :
      Effect s i (((s.setX m).setLastErr ErrCode.ok.code).send ⟨ErrCode.ok.code, frames⟩)

/-- A command that writes all of x has no word left to keep. -/
theorem keeps_of_all {m x : StateMatrix} (r : Reg) (hr : r ∉ List.finRange 16) : m[r] = x[r] :=
  absurd (List.mem_finRange r) hr

/-- A command that writes one word keeps the others. -/
theorem keeps_of_set {x : StateMatrix} {rd : Reg} {v : Word} (r : Reg) (hr : r ∉ [rd]) :
    (x.set rd v)[r] = x[r] :=
  set_reg_of_ne x v (by simpa using hr)

/-- Every command ends in one of the ways of `Effect`. -/
theorem exec_effect (i : Instr) (s : State) : ∃ t, exec i s = .next t ∧ Effect s i t := by
  cases i with
  | construct k n =>
    show ∃ t, execConstruct k n s = .next t ∧ _
    unfold execConstruct
    split_ifs
    · exact ⟨_, rfl, .destroyed k n .invalidKeyLength (by simp [possibleErrors])⟩
    · exact ⟨_, rfl, .destroyed k n .invalidNonceLength (by simp [possibleErrors])⟩
    · exact ⟨_, rfl, .made k n _ _⟩
  | encrypt m =>
    rcases execEncrypt_cases m s with ⟨-, he⟩ | ⟨-, -, he⟩ | ⟨hv, hn, he⟩
    · exact ⟨_, he, .raised _ .noInstance (by simp [possibleErrors]) (by simp)⟩
    · exact ⟨_, he, .raised _ .keystreamExhausted (by simp [possibleErrors]) (by simp)⟩
    · exact ⟨_, he, .encrypted m _ hv hn⟩
  | setctr v =>
    show ∃ t, execSetctr v s = .next t ∧ _
    unfold execSetctr
    split_ifs with hl hv
    · exact ⟨_, rfl, .raised _ .operandLength (by simp [possibleErrors]) (by simp)⟩
    · exact ⟨_, rfl, .raised _ .noInstance (by simp [possibleErrors]) (by simp)⟩
    · exact ⟨_, rfl, .counterSet v _ (by simpa using hv)⟩
  | getctr =>
    show ∃ t, execGetctr s = .next t ∧ _
    unfold execGetctr
    split_ifs
    · exact ⟨_, rfl, .raised _ .noInstance (by simp [possibleErrors]) (by simp)⟩
    · exact ⟨_, rfl, .computed _ s.x _ (by simp [Instr.header]) fun _ _ => rfl⟩
  | getstat => exact ⟨_, rfl, .status _⟩
  | ldst b =>
    show ∃ t, execLdst b s = .next t ∧ _
    unfold execLdst
    split_ifs
    · exact ⟨_, rfl, .computed _ _ _ (by simp [Instr.header]) keeps_of_all⟩
    · exact ⟨_, rfl, .raised _ .operandLength (by simp [possibleErrors]) (by simp)⟩
  | rdst => exact ⟨_, rfl, .computed _ s.x _ (by simp [Instr.header]) fun _ _ => rfl⟩
  | qr a b c d =>
    show ∃ t, execQr a b c d s = .next t ∧ _
    unfold execQr
    split_ifs
    · exact ⟨_, rfl, .computed _ _ _ (by simp [Instr.header]) fun _ =>
        qrLane_of_notMem (l := ⟨a, b, c, d⟩) s.x⟩
    · exact ⟨_, rfl, .raised _ .operandAlias (by simp [possibleErrors]) (by simp)⟩
  | cround => exact ⟨_, rfl, .computed _ _ _ (by simp [Instr.header]) keeps_of_all⟩
  | rround => exact ⟨_, rfl, .computed _ _ _ (by simp [Instr.header]) keeps_of_all⟩
  | dround => exact ⟨_, rfl, .computed _ _ _ (by simp [Instr.header]) keeps_of_all⟩
  | core => exact ⟨_, rfl, .computed _ _ _ (by simp [Instr.header]) keeps_of_all⟩
  | hash => exact ⟨_, rfl, .computed _ _ _ (by simp [Instr.header]) keeps_of_all⟩
  | add rd rs1 rs2 =>
    exact ⟨_, rfl, .computed _ (s.x.set rd _) _ (by simp [Instr.header]) keeps_of_set⟩
  | xor rd rs1 rs2 =>
    exact ⟨_, rfl, .computed _ (s.x.set rd _) _ (by simp [Instr.header]) keeps_of_set⟩
  | rotl rd rs1 n =>
    exact ⟨_, rfl, .computed _ (s.x.set rd _) _ (by simp [Instr.header]) keeps_of_set⟩

/-- The state a command answers is one its `Effect` allows. -/
theorem effect_of_exec {i : Instr} {s t : State} (h : exec i s = .next t) : Effect s i t := by
  obtain ⟨u, hu, he⟩ := exec_effect i s
  cases hu.symm.trans h
  exact he

/-- The states a step can answer: in reset, a byte further, waiting, or after a command (R63, R70). -/
theorem step_next_cases {s t : State} (h : step s = .next t) :
    t = inReset s ∨ (∃ b rest, t = s.sendByte b rest) ∨ t = s ∨
      ∃ c rest, execCmd c (s.consume rest) = .next t := by
  rcases step_cases s with ⟨-, e⟩ | ⟨b, rest, -, -, e⟩ | ⟨-, -, -, e⟩ | ⟨w, rest, -, -, -, e⟩ |
    ⟨i, rest, -, -, -, e⟩ <;> rw [e] at h
  · cases h
    exact .inl rfl
  · cases h
    exact .inr (.inl ⟨b, rest, rfl⟩)
  · cases h
    exact .inr (.inr (.inl rfl))
  · exact .inr (.inr (.inr ⟨.illegal w, rest, h⟩))
  · exact .inr (.inr (.inr ⟨.legal i, rest, h⟩))

/-! ## The invariant `State.Inv`: one rule a state update, then the commands, then the step -/

theorem ok_reported : ErrCode.ok.code ∈ reportedCodes := by decide

theorem illegalCommand_reported : ErrCode.illegalCommand.code ∈ reportedCodes := by decide

/-- LENGTH_MISMATCH is the one code that is not reported (R205). -/
theorem code_reported {e : ErrCode} (he : e ≠ .lengthMismatch) : e.code ∈ reportedCodes := by
  revert he
  cases e <;> decide

/-- No command can raise LENGTH_MISMATCH (R202, R205). -/
theorem possibleErrors_reported {i : Instr} {e : ErrCode} (he : e ∈ possibleErrors i) :
    e.code ∈ reportedCodes := by
  apply code_reported
  rintro rfl
  cases i <;> simp [possibleErrors] at he

theorem State.Inv.resetWith (cfg : Config) : (State.resetWith cfg).Inv where
  exhausted h := nomatch h
  noInstance _ := ⟨rfl, rfl, rfl⟩
  lastErrReported := ok_reported

theorem State.Inv.inReset (s : State) : (inReset s).Inv :=
  let h := State.Inv.resetWith s.cfg
  ⟨h.exhausted, h.noInstance, h.lastErrReported⟩

namespace State.Inv

variable {s : State}

theorem sendByte (h : s.Inv) (b : Byte) (rest : Bytes) : (s.sendByte b rest).Inv :=
  ⟨h.exhausted, h.noInstance, h.lastErrReported⟩

theorem consume (h : s.Inv) (rest : Bytes) : (s.consume rest).Inv :=
  ⟨h.exhausted, h.noInstance, h.lastErrReported⟩

theorem send (h : s.Inv) (r : Resp) : (s.send r).Inv :=
  ⟨h.exhausted, h.noInstance, h.lastErrReported⟩

theorem setX (h : s.Inv) (m : StateMatrix) : (s.setX m).Inv :=
  ⟨h.exhausted, h.noInstance, h.lastErrReported⟩

theorem setLastErr (h : s.Inv) {c : BitVec 8} (hc : c ∈ reportedCodes) : (s.setLastErr c).Inv :=
  ⟨h.exhausted, h.noInstance, hc⟩

/-- A failed CONSTRUCT leaves zeros (R167). -/
theorem clearInstance (h : s.Inv) : s.clearInstance.Inv :=
  ⟨nofun, fun _ => ⟨rfl, rfl, rfl⟩, h.lastErrReported⟩

theorem makeInstance (h : s.Inv) (key : Vector Byte 32) (nonce : Vector Byte 8) :
    (s.makeInstance key nonce).Inv :=
  ⟨nofun, nofun, h.lastErrReported⟩

theorem setCtr (h : s.Inv) (hv : s.valid = true) (c : BitVec 64) : (s.setCtr c).Inv :=
  ⟨nofun, fun hf => absurd (hv.symm.trans hf) (by decide), h.lastErrReported⟩

/-- With EXH = 1 no block is left, so a message that ENCRYPT accepts moves neither CTR nor EXH; otherwise
EXH is set by the wrap alone, which leaves CTR at 0 (R28, R35, R168). -/
theorem advanceCtr (h : s.Inv) (hv : s.valid = true) {n : Nat} (hn : n ≤ s.blocksLeft) :
    (s.advanceCtr n).Inv where
  exhausted he := by
    rw [State.advanceCtr_valid]
    refine ⟨?_, hv⟩
    have hadv := advanceCtr_of_le hn
    split_ifs at hadv with hw
    · exact hadv.1
    · obtain ⟨hctr, hexh⟩ := hadv
      have hs : s.exh = true := hexh.symm.trans he
      have hn0 : n = 0 := by simpa [State.blocksLeft, hs] using hn
      apply BitVec.eq_of_toNat_eq
      rw [hctr, hn0, (h.exhausted hs).1, Nat.add_zero]
  noInstance hf := by
    rw [State.advanceCtr_valid, hv] at hf
    cases hf
  lastErrReported := by
    rw [State.advanceCtr_lastErr]
    exact h.lastErrReported

end State.Inv

/-- Every legal command keeps the invariant. -/
theorem Effect.inv {s t : State} {i : Instr} (e : Effect s i t) (h : s.Inv) : t.Inv := by
  cases e with
  | raised _ e he _ => exact (h.setLastErr (possibleErrors_reported he)).send _
  | destroyed k n e he => exact (h.clearInstance.setLastErr (possibleErrors_reported he)).send _
  | made k n key nonce => exact ((h.makeInstance key nonce).setLastErr ok_reported).send _
  | encrypted m out hv hn => exact (((h.advanceCtr hv hn).setX _).setLastErr ok_reported).send _
  | counterSet v c hv => exact ((h.setCtr hv c).setLastErr ok_reported).send _
  | status out => exact h.send _
  | computed _ m frames _ _ => exact ((h.setX m).setLastErr ok_reported).send _

/-- Every command keeps the invariant, an illegal header word included. -/
theorem execCmd_inv {c : Cmd} {s t : State} (h : execCmd c s = .next t) (hs : s.Inv) : t.Inv := by
  cases c with
  | legal i => exact (effect_of_exec h).inv hs
  | illegal w =>
    cases h
    exact (hs.setLastErr illegalCommand_reported).send _

/-- Settles O12: the invariant holds in reset, a sent byte and a wait touch none of its registers, and every
command keeps it. -/
theorem everyStepKeepsTheInvariant : Obligations.EveryStepKeepsTheInvariant := by
  intro s t hs h
  rcases step_next_cases h with rfl | ⟨b, rest, rfl⟩ | rfl | ⟨c, rest, hc⟩
  · exact .inReset s
  · exact hs.sendByte b rest
  · exact hs
  · exact execCmd_inv hc (hs.consume rest)

/-! ## COLUMN_ORDER and LAST_ERR -/

/-- Settles O14: neither reset, nor a sent byte, nor a command writes the build parameter. -/
theorem noStepChangesColumnOrder : Obligations.NoStepChangesColumnOrder := by
  intro s t h
  rcases step_next_cases h with rfl | ⟨b, rest, rfl⟩ | rfl | ⟨c, rest, hc⟩
  · rfl
  · rfl
  · rfl
  · obtain ⟨-, -, -, -, -, hcfg, -⟩ := execCmd_channels hc
    rw [hcfg, State.consume_cfg]

/-- GETSTAT leaves LAST_ERR as it was (R29, R172). -/
theorem Effect.getstat_lastErr {s t : State} (e : Effect s .getstat t) : t.lastErr = s.lastErr := by
  cases e with
  | raised _ e he _ => simp [possibleErrors] at he
  | status out => rfl
  | computed _ m frames hi _ => simp [Instr.header] at hi

/-- Every other legal command leaves in LAST_ERR the code of its response (R29). -/
theorem Effect.response_code {s t : State} {i : Instr} (e : Effect s i t) (hi : i ≠ .getstat) :
    ∃ frames, t.sending = s.sending ++ Resp.serialize ⟨t.lastErr, frames⟩ := by
  cases e with
  | raised _ e _ _ => exact ⟨[], rfl⟩
  | destroyed k n e _ => exact ⟨[], rfl⟩
  | made k n key nonce => exact ⟨[], rfl⟩
  | encrypted m out _ _ => exact ⟨[out], by simp [State.afterEncrypt]⟩
  | counterSet v c _ => exact ⟨[], rfl⟩
  | status out => exact absurd rfl hi
  | computed _ m frames _ _ => exact ⟨frames, rfl⟩

/-- Settles O18, by the way the command ends; an illegal header word is answered with the code it leaves. -/
theorem lastErrIsTheCodeOfTheLastCommandButGetstat :
    Obligations.LastErrIsTheCodeOfTheLastCommandButGetstat := by
  intro c s t h
  cases c with
  | legal i =>
    have e := effect_of_exec h
    constructor
    · rintro ⟨rfl⟩
      exact e.getstat_lastErr
    · intro hne
      exact e.response_code fun hi => hne (hi ▸ rfl)
  | illegal w =>
    cases h
    exact ⟨nofun, fun _ => ⟨[], rfl⟩⟩

/-! ## Which commands write each register -/

/-- Only CONSTRUCT writes KEY, NONCE and VALID (R24, R25, R27). -/
theorem Effect.keeps_instance {s t : State} {i : Instr} (e : Effect s i t)
    (hi : i.header ∉ [.construct]) : t.key = s.key ∧ t.nonce = s.nonce ∧ t.valid = s.valid := by
  cases e with
  | destroyed k n e _ => simp [Instr.header] at hi
  | made k n key nonce => simp [Instr.header] at hi
  | encrypted m out _ _ => simp [State.afterEncrypt]
  | raised _ e _ _ => exact ⟨rfl, rfl, rfl⟩
  | counterSet v c _ => exact ⟨rfl, rfl, rfl⟩
  | status out => exact ⟨rfl, rfl, rfl⟩
  | computed _ m frames _ _ => exact ⟨rfl, rfl, rfl⟩

/-- Only CONSTRUCT, ENCRYPT and SETCTR write CTR and EXH (R26, R28). -/
theorem Effect.keeps_counter {s t : State} {i : Instr} (e : Effect s i t)
    (hi : i.header ∉ [.construct, .encrypt, .setctr]) : t.ctr = s.ctr ∧ t.exh = s.exh := by
  cases e with
  | destroyed k n e _ => simp [Instr.header] at hi
  | made k n key nonce => simp [Instr.header] at hi
  | encrypted m out _ _ => simp [Instr.header] at hi
  | counterSet v c _ => simp [Instr.header] at hi
  | raised _ e _ _ => exact ⟨rfl, rfl⟩
  | status out => exact ⟨rfl, rfl⟩
  | computed _ m frames _ _ => exact ⟨rfl, rfl⟩

/-- A word of x outside the command's own is kept (R23). -/
theorem Effect.keeps_word {s t : State} {i : Instr} (e : Effect s i t) {r : Reg}
    (hr : r ∉ writtenWords i) : t.reg r = s.reg r := by
  cases e with
  | encrypted m out _ _ => exact keeps_of_all r hr
  | computed _ m frames _ hm => exact hm r hr
  | raised _ e _ _ => rfl
  | destroyed k n e _ => rfl
  | made k n key nonce => rfl
  | counterSet v c _ => rfl
  | status out => rfl

/-- The commands outside R23's list write no word of x. -/
theorem writtenWords_eq_nil {i : Instr}
    (hi : i.header ∈ [.construct, .setctr, .getctr, .getstat, .rdst]) : writtenWords i = [] := by
  cases i <;> simp [Instr.header] at hi <;> rfl

theorem Effect.keeps_x {s t : State} {i : Instr} (e : Effect s i t)
    (hi : i.header ∈ [.construct, .setctr, .getctr, .getstat, .rdst]) : t.x = s.x :=
  StateMatrix.ext_reg fun r => e.keeps_word (r := r) (by simp [writtenWords_eq_nil hi])

/-- Settles O19, each register by its own lemma, the channels by `exec_channels`. -/
theorem onlyTheListedCommandsWriteEachRegister :
    Obligations.OnlyTheListedCommandsWriteEachRegister := by
  intro i s t h
  have e := effect_of_exec h
  obtain ⟨r, hsend, hcmd, hresp, hpin, hcfg, -⟩ := exec_channels h
  refine ⟨e.keeps_instance, e.keeps_counter, e.keeps_x, ?_, ?_, ?_, ?_, hcfg, hcmd, hpin, hresp, r,
    hsend.symm⟩
  · rintro a b c d q rfl hq
    exact e.keeps_word hq
  · rintro rd a b q (rfl | rfl) hq
    · exact e.keeps_word (List.mem_singleton.not.mpr hq)
    · exact e.keeps_word (List.mem_singleton.not.mpr hq)
  · rintro rd a n q rfl hq
    exact e.keeps_word (List.mem_singleton.not.mpr hq)
  · rintro rfl
    exact e.getstat_lastErr

/-- An ENCRYPT that lowers CTR has used the last block: it wraps and sets EXH (R28, R168). -/
theorem advanceCtr_lt {s : State} {n : Nat} (hn : n ≤ s.blocksLeft)
    (hlt : (s.advanceCtr n).ctr.toNat < s.ctr.toNat) :
    (s.advanceCtr n).ctr = 0 ∧ (s.advanceCtr n).exh = true ∧ s.ctr.toNat + n = 2 ^ 64 := by
  have hadv := advanceCtr_of_le hn
  split_ifs at hadv with hw
  · exact ⟨hadv.1, hadv.2, hw⟩
  · omega

/-- Settles O20: CONSTRUCT, SETCTR and ENCRYPT alone write CTR, and ENCRYPT lowers it by the wrap. -/
theorem ctrDecreasesOnlyBySetctrConstructOrTheWrap :
    Obligations.CtrDecreasesOnlyBySetctrConstructOrTheWrap := by
  intro i s t h hlt
  cases effect_of_exec h with
  | destroyed k n e _ => exact .inr (.inl ⟨k, n, rfl⟩)
  | made k n key nonce => exact .inr (.inl ⟨k, n, rfl⟩)
  | counterSet v c _ => exact .inl ⟨v, rfl⟩
  | encrypted m out _ hn => exact .inr (.inr ⟨m, rfl, advanceCtr_lt hn hlt⟩)
  | raised _ e _ _ => exact absurd hlt (Nat.lt_irrefl _)
  | status out => exact absurd hlt (Nat.lt_irrefl _)
  | computed _ m frames _ _ => exact absurd hlt (Nat.lt_irrefl _)

/-! ## Reset -/

/-- Settles O1: each register of the reset state is the constant of R36's table. -/
theorem resetGivesEveryRegisterItsResetValue : Obligations.ResetGivesEveryRegisterItsResetValue := by
  intro cfg
  refine ⟨fun r => ?_, rfl, rfl, rfl, rfl, rfl, rfl⟩
  show (Vector.replicate 16 (0 : Word))[r] = 0
  simp

/-- Settles O13: VALID and EXH are 0, KEY, NONCE and CTR zero, LAST_ERR the code of success. -/
theorem resetStateHasTheInvariant : Obligations.ResetStateHasTheInvariant :=
  State.Inv.resetWith

end Sys2Proof.Machine

/-! ## Decoding what was sent (30_encoding.md R70 to R76) -/

namespace Sys2Proof

open Sys2Proof.Machine

/-- A header word built from a header's fields says that header (R73 to R76). -/
theorem decodeHeader_encodeHeader (h : Header) : decodeHeader (encodeHeader h) = .ok h := by
  have hw := encodeHeader_toNat h
  cases h with
  | qr a b c d =>
    simp only [Header.opcode, Header.fields] at hw
    obtain ⟨_, hd, a', b', c', d', rfl, ha, hb, hc, hd'⟩ :=
      (headerWords_qr (encodeHeader (.qr a b c d)) (by omega)).1 (by unfold reservedQ; omega)
    obtain ⟨rfl, rfl, rfl, rfl⟩ : a' = a ∧ b' = b ∧ c' = c ∧ d' = d := by
      simp only [Fin.ext_iff]
      omega
    exact hd
  | add rd rs1 rs2 =>
    simp only [Header.opcode, Header.fields] at hw
    obtain ⟨_, hd, rd', rs1', rs2', rfl, h0, h1, h2⟩ :=
      (headerWords_add (encodeHeader (.add rd rs1 rs2)) (by omega)).1 (by unfold reservedR; omega)
    obtain ⟨rfl, rfl, rfl⟩ : rd' = rd ∧ rs1' = rs1 ∧ rs2' = rs2 := by
      simp only [Fin.ext_iff]
      omega
    exact hd
  | xor rd rs1 rs2 =>
    simp only [Header.opcode, Header.fields] at hw
    obtain ⟨_, hd, rd', rs1', rs2', rfl, h0, h1, h2⟩ :=
      (headerWords_xor (encodeHeader (.xor rd rs1 rs2)) (by omega)).1 (by unfold reservedR; omega)
    obtain ⟨rfl, rfl, rfl⟩ : rd' = rd ∧ rs1' = rs1 ∧ rs2' = rs2 := by
      simp only [Fin.ext_iff]
      omega
    exact hd
  | rotl rd rs1 n =>
    simp only [Header.opcode, Header.fields] at hw
    obtain ⟨_, hd, rd', rs1', n', rfl, h0, h1, h2⟩ :=
      (headerWords_rotl (encodeHeader (.rotl rd rs1 n)) (by omega)).1 (by unfold reservedI; omega)
    obtain ⟨rfl, rfl, rfl⟩ : rd' = rd ∧ rs1' = rs1 ∧ n' = n := by
      simp only [Fin.ext_iff]
      omega
    exact hd
  | _ => rfl

/-- One operand frame sent is the frame the command is given (R70, R71). -/
theorem withFrame_flatMap_frameBytes (mk : Bytes → Instr) {f : Bytes} (rest : Bytes)
    (hf : f.length ≤ 2 ^ 64 - 1) :
    withFrame mk ([f].flatMap frameBytes ++ rest) = .command (.legal (mk f)) rest := by
  rw [withFrame, List.flatMap_singleton, takeFrame_frameBytes rest hf]

/-- The operand frames sent are the frames read after the header (R70, R75). -/
theorem decodeFrames_frames {i : Instr} (rest : Bytes) (hi : i.wf = true) :
    decodeFrames i.header (i.frames.flatMap frameBytes ++ rest) = .command (.legal i) rest := by
  have fits : ∀ f ∈ i.frames, f.length ≤ 2 ^ 64 - 1 := by
    simpa [Instr.wf, frameFits] using hi
  cases i with
  | construct key nonce =>
    have hkey := fits key List.mem_cons_self
    have hnonce := fits nonce (List.mem_cons_of_mem key List.mem_cons_self)
    rw [Instr.frames, Instr.header, decodeFrames, List.flatMap_cons, List.append_assoc,
      takeFrame_frameBytes _ hkey]
    exact withFrame_flatMap_frameBytes _ rest hnonce
  | encrypt msg => exact withFrame_flatMap_frameBytes _ rest (fits msg List.mem_cons_self)
  | setctr value => exact withFrame_flatMap_frameBytes _ rest (fits value List.mem_cons_self)
  | ldst block => exact withFrame_flatMap_frameBytes _ rest (fits block List.mem_cons_self)
  | _ => rfl

/-- What the host sends for a command is read as that command, and the bytes after it stay (R70). -/
theorem decode_encode {i : Instr} (rest : Bytes) (hi : i.wf = true) :
    decode (encode i ++ rest) = .command (.legal i) rest := by
  rw [decode, encode, List.append_assoc, takeWord_bytes32]
  simp only [decodeHeader_encodeHeader]
  exact decodeFrames_frames rest hi

end Sys2Proof

/-! ## A run over commands sent ahead (20_memory.md R63, 30_encoding.md R70) -/

namespace Sys2Proof.Machine

/-- An idle engine executes the command that stands at the front of its channel (R63, R70). -/
theorem step_encode {s : State} {i : Instr} {rest : Bytes} (hp : s.resetPin = false)
    (hs : s.sending = []) (hi : i.wf = true) (hc : s.cmdIn = encode i ++ rest) :
    step s = exec i (s.consume rest) := by
  rw [step_of_idle hp hs, stepCommand, hc, decode_encode rest hi]
  rfl

/-- With no reset, as many steps as there are bytes to send bring the whole response out (R70; log 4). -/
theorem run_sendAll {s : State} (hp : s.resetPin = false) :
    Sys2Proof.core.run s.sending.length s = .next s.sendAll := by
  induction hs : s.sending generalizing s with
  | nil =>
    have hall : s.sendAll = s := by
      rw [State.sendAll, hs, List.append_nil, ← hs]
    rw [hall]
    rfl
  | cons b bs ih =>
    have hbyte : (s.sendByte b bs).sendAll = s.sendAll := by
      simp [State.sendAll, State.sendByte, hs]
    rw [List.length_cons, core_run_of_next _ (step_of_sending hp hs), ih (s := s.sendByte b bs) hp rfl, hbyte]

/-- One command and its response: the engine executes the first command sent and sends its response whole. -/
theorem run_command {s t : State} {i : Instr} {rest : Bytes} (hp : s.resetPin = false)
    (hs : s.sending = []) (hi : i.wf = true) (hc : s.cmdIn = encode i ++ rest)
    (ht : exec i (s.consume rest) = .next t) :
    Sys2Proof.core.run (t.sending.length + 1) s = .next t.sendAll := by
  obtain ⟨-, -, -, -, hpin, -, -⟩ := exec_channels ht
  rw [core_run_of_next _ ((step_encode hp hs hi hc).trans ht)]
  exact run_sendAll (hpin.trans hp)

/-- A list of commands, as `exec_channels` says it of one command: it adds its responses to the bytes still to
be sent, and reads neither these nor the response channel. -/
theorem execAll_channels {is : List Instr} {s t : State} (h : execAll is s = .next t) :
    ∃ r : Bytes, t.sending = s.sending ++ r ∧
      ∀ a o, execAll is { s with sending := a, respOut := o } =
        .next { t with sending := a ++ r, respOut := o } := by
  induction is generalizing s with
  | nil =>
    cases h
    exact ⟨[], (List.append_nil _).symm, fun a o => by rw [List.append_nil]; rfl⟩
  | cons i is ih =>
    obtain ⟨u, hu, -⟩ := exec_effect i s
    rw [execAll, hu] at h
    obtain ⟨r, hr, hcmd, -, -, -, hfirst⟩ := exec_channels hu
    obtain ⟨r', hr', hrest⟩ := ih h
    refine ⟨r ++ r', by rw [hr', hr, List.append_assoc], fun a o => ?_⟩
    have hhead : exec i { s with sending := a, respOut := o } =
        .next { u with sending := a ++ r, respOut := o } := by
      rw [hfirst s.cmdIn a o, ← hcmd]
    rw [execAll, hhead, ← List.append_assoc]
    exact hrest (a ++ r) o

/-- Settles O15, by induction on the commands. The first one and its response take the engine to an idle state
(`run_command`), from which the others run. That its response has been sent there, while `execAll` still holds
it in `sending`, changes nothing of what they do (`execAll_channels`). -/
theorem channelRunsCommandsInTheOrderSent : Obligations.ChannelRunsCommandsInTheOrderSent := by
  intro is s rest hp hs hwf hc
  induction is generalizing s with
  | nil =>
    have hrest : s.cmdIn = rest := hc
    subst hrest
    refine ⟨s, rfl, ?_⟩
    rw [List.length_nil, Nat.zero_add]
    exact run_sendAll hp
  | cons i is ih =>
    obtain ⟨hi, his⟩ := List.forall_mem_cons.1 hwf
    rw [List.flatMap_cons, List.append_assoc] at hc
    obtain ⟨u, hu, -⟩ := exec_effect i (s.consume (is.flatMap encode ++ rest))
    obtain ⟨r, hr, hcmd, hresp, hpin, -, hfirst⟩ := exec_channels hu
    obtain ⟨t, ht, hrun⟩ := ih u.sendAll (hpin.trans hp) rfl his hcmd
    obtain ⟨r', hr', hothers⟩ := execAll_channels ht
    obtain rfl : t.sending = r' := hr'
    have hhead : exec i { s with cmdIn := rest } =
        .next { u with cmdIn := rest, sending := u.sending, respOut := s.respOut } := by
      rw [hr]
      exact hfirst rest s.sending s.respOut
    refine ⟨{ t with sending := u.sending ++ t.sending, respOut := s.respOut }, ?_, ?_⟩
    · rw [execAll, hhead]
      exact hothers u.sending s.respOut
    · have hsteps : (i :: is).length + (u.sending ++ t.sending).length =
          (u.sending.length + 1) + (is.length + t.sending.length) := by
        rw [List.length_cons, List.length_append]
        omega
      have hout : u.sendAll.respOut ++ t.sending = s.respOut ++ (u.sending ++ t.sending) := by
        rw [State.sendAll_respOut, hresp, State.consume_respOut, List.append_assoc]
      rw [hsteps, run_add _ (run_command hp hs hi hc hu), hrun, hout]

end Sys2Proof.Machine

/-! ## The 64 bytes of a matrix (20_memory.md R54) -/

namespace Sys2Proof.Machine

/-- Bytes after the first word of a sequence, one word further (R54). -/
theorem wordAt_append_succ {w ws : Bytes} (hw : w.length = 4) (i : Nat) :
    wordAt (w ++ ws) (i + 1) = wordAt ws i := by
  have skip : ∀ k, byteAt (w ++ ws) (4 * (i + 1) + k) = byteAt ws (4 * i + k) := by
    intro k
    rw [byteAt, List.getD_append_right _ _ _ _ (by omega), byteAt, hw]
    congr 1
    omega
  rw [wordAt, wordAt, skip 1, skip 2, skip 3]
  exact congrArg (le32 · _ _ _) (skip 0)

/-- Word i of a list of words sent one after another is its word i (R53, R54). -/
theorem wordAt_flatMap_bytes32 (ws : List Word) (i : Nat) (hi : i < ws.length) :
    wordAt (ws.flatMap bytes32) i = ws[i] := by
  induction ws generalizing i with
  | nil => exact absurd hi (Nat.not_lt_zero i)
  | cons w ws ih =>
    cases i with
    | zero => exact le32_bytes32 w
    | succ i =>
      rw [List.flatMap_cons, wordAt_append_succ (bytes32_length w)]
      exact ih i (Nat.lt_of_succ_lt_succ hi)

/-- The n words of 4n bytes, sent one after another, are these bytes (R52, R54). -/
theorem flatMap_bytes32_wordAt (n : Nat) (b : Bytes) (hb : b.length = 4 * n) :
    (List.ofFn fun i : Fin n => wordAt b i).flatMap bytes32 = b := by
  induction n generalizing b with
  | zero => exact (List.eq_nil_of_length_eq_zero hb).symm
  | succ n ih =>
    match b, hb with
    | b0 :: b1 :: b2 :: b3 :: tl, hb =>
      have first : wordAt (b0 :: b1 :: b2 :: b3 :: tl) 0 = le32 b0 b1 b2 b3 := rfl
      have later : ∀ i, wordAt (b0 :: b1 :: b2 :: b3 :: tl) (i + 1) = wordAt tl i :=
        wordAt_append_succ (w := [b0, b1, b2, b3]) rfl
      have hlen : tl.length = 4 * n := by
        simp only [List.length_cons] at hb
        omega
      simp only [List.ofFn_succ, List.flatMap_cons, Fin.val_zero, Fin.val_succ, first, later,
        bytes32_le32, ih tl hlen]
      rfl

/-- Word i of the matrix of a byte sequence (R54). -/
theorem matrixOfBytes_reg (b : Bytes) (i : Reg) : (matrixOfBytes b)[i] = wordAt b i := by
  simp [matrixOfBytes]

/-- The matrix of a matrix's bytes is that matrix (R54). -/
theorem matrixOfBytes_bytesOfMatrix (m : StateMatrix) : matrixOfBytes (bytesOfMatrix m) = m := by
  apply StateMatrix.ext_reg
  intro i
  rw [matrixOfBytes_reg, bytesOfMatrix, wordAt_flatMap_bytes32 _ _ (by simp)]
  exact Vector.getElem_toList _

/-- The bytes of the matrix of 64 bytes are these bytes (R54). -/
theorem bytesOfMatrix_matrixOfBytes {b : Bytes} (hb : b.length = 64) :
    bytesOfMatrix (matrixOfBytes b) = b := by
  rw [bytesOfMatrix, matrixOfBytes, Vector.toList_ofFn]
  exact flatMap_bytes32_wordAt 16 b hb

/-- The words of a matrix in order, as a list. -/
theorem toList_eq_ofFn_reg (m : StateMatrix) : m.toList = List.ofFn fun i : Reg => m[i] := by
  rw [← Vector.toList_ofFn]
  congr 1
  apply StateMatrix.ext_reg
  intro i
  simp

/-- Settles O42: the two maps undo each other, and each is the formula of R54. -/
theorem matrixAndSixtyFourBytesAreInverse : Obligations.MatrixAndSixtyFourBytesAreInverse := by
  refine ⟨fun m => ⟨bytesOfMatrix_length m, matrixOfBytes_bytesOfMatrix m⟩,
    fun b => bytesOfMatrix_matrixOfBytes, matrixOfBytes_reg, fun m => ?_⟩
  rw [bytesOfMatrix, toList_eq_ofFn_reg, List.flatMap_def, List.map_ofFn]
  rfl

end Sys2Proof.Machine

/-! ## Commands executed twice (20_memory.md R60) -/

namespace Sys2Proof.Machine

/-- A read changes no register but LAST_ERR, and executed again it sends the same response and changes no
register at all. -/
theorem exec_read_again {i : Instr} {s t : State} (hi : i ∈ [.getstat, .getctr, .rdst])
    (h : exec i s = .next t) :
    t = { s with lastErr := t.lastErr, sending := t.sending } ∧
    ∃ r, t.sending = s.sending ++ r ∧ exec i t = .next { t with sending := t.sending ++ r } := by
  simp only [List.mem_cons, List.not_mem_nil, or_false] at hi
  rcases hi with rfl | rfl | rfl
  · rw [exec_getstat] at h
    cases h
    exact ⟨rfl, _, rfl, exec_getstat _⟩
  · rw [exec_getctr] at h
    split_ifs at h with hv <;> cases h
    · exact ⟨rfl, _, rfl, (exec_getctr _).trans (if_pos hv)⟩
    · exact ⟨rfl, _, rfl, (exec_getctr _).trans (if_neg hv)⟩
  · rw [exec_rdst] at h
    cases h
    exact ⟨rfl, _, rfl, exec_rdst _⟩

/-- CONSTRUCT, SETCTR and LDST, executed again, only send a response: the first execution has left the
registers as the second one leaves them, an error included. -/
theorem exec_load_again {i : Instr} {s t : State} (hi : i.header ∈ [.construct, .setctr, .ldst])
    (h : exec i s = .next t) : ∃ a, exec i t = .next { t with sending := a } := by
  cases i with
  | construct k n =>
    simp only [exec_construct, failedConstruct_next] at h ⊢
    split_ifs at h ⊢ <;> cases h <;> exact ⟨_, rfl⟩
  | setctr v =>
    rw [exec_setctr] at h
    split_ifs at h with hl hv <;> cases h
    · exact ⟨_, (exec_setctr v _).trans (if_pos hl)⟩
    · exact ⟨_, (exec_setctr v _).trans ((if_neg hl).trans (if_pos hv))⟩
    · exact ⟨_, (exec_setctr v _).trans ((if_neg hl).trans (if_neg hv))⟩
  | ldst b =>
    simp only [exec_ldst] at h ⊢
    split_ifs at h ⊢ <;> cases h <;> exact ⟨_, rfl⟩
  | _ => simp [Instr.header] at hi

/-- Settles O21: by what a read and a load do when executed again. -/
theorem readsHaveNoSideEffectAndLoadsAreIdempotent :
    Obligations.ReadsHaveNoSideEffectAndLoadsAreIdempotent := by
  intro i s t u h h'
  refine ⟨fun hi => ?_, ?_, fun hi => ?_⟩
  · obtain ⟨ht, r, hr, he⟩ := exec_read_again hi h
    cases he.symm.trans h'
    exact ⟨ht, r, hr, rfl⟩
  · rintro rfl
    exact (effect_of_exec h).getstat_lastErr
  · obtain ⟨a, he⟩ := exec_load_again hi h
    cases he.symm.trans h'
    rfl

end Sys2Proof.Machine

/-! ## The encoding is one to one (30_encoding.md R70 to R77) -/

namespace Sys2Proof

open Sys2Proof.Machine

/-- Settles O4: every command, with its frames, is read back from what the host sends for it. -/
theorem decodeOfEncodeIsTheCommand : Obligations.DecodeOfEncodeIsTheCommand :=
  fun _ rest hi => decode_encode rest hi

theorem ifReservedZero_eq_ok_iff {ok : Bool} {h h' : Header} :
    ifReservedZero ok h = .ok h' ↔ ok = true ∧ h = h' := by
  cases ok <;> simp [ifReservedZero]

/-- A legal header word is its opcode and its operand fields, with no other bit set (R73 to R77). -/
theorem toNat_of_decodeHeader {w : Word} {h : Header} (hd : decodeHeader w = .ok h) :
    w.toNat = h.opcode + h.fields := by
  have hop := opField_toNat w
  have hw := w.isLt
  unfold decodeHeader at hd
  split at hd
  case h_17 => cases hd
  all_goals
    obtain ⟨hr, rfl⟩ := ifReservedZero_eq_ok_iff.1 hd
    simp only [reservedZeroN_iff, reservedZeroQ_iff, reservedZeroR_iff, reservedZeroI_iff] at hr
    simp only [Header.opcode, Header.fields, regField_val, shamtField_val]
    omega

/-- A header word and the header it says determine each other (R73 to R76). -/
theorem decodeHeader_eq_ok_iff {w : Word} {h : Header} : decodeHeader w = .ok h ↔ w = encodeHeader h := by
  constructor
  · intro hd
    apply BitVec.eq_of_toNat_eq
    rw [toNat_of_decodeHeader hd, encodeHeader_toNat]
  · rintro rfl
    exact decodeHeader_encodeHeader h

/-- A command read with one operand frame is given the frame that stood on the channel (R70, R71). -/
theorem eq_of_withFrame {mk : Bytes → Instr} {bs rest : Bytes} {i : Instr}
    (h : withFrame mk bs = .command (.legal i) rest) :
    ∃ f : Bytes, i = mk f ∧ bs = frameBytes f ++ rest ∧ f.length ≤ 2 ^ 64 - 1 := by
  unfold withFrame at h
  split at h
  · next f _ hf =>
    cases h
    exact ⟨f, rfl, eq_of_takeFrame hf⟩
  · cases h

/-- Well-formed is: every operand frame fits its length field (R71). -/
theorem Instr.wf_iff {i : Instr} : i.wf = true ↔ ∀ f ∈ i.frames, f.length ≤ 2 ^ 64 - 1 := by
  simp [Instr.wf, frameFits]

/-- The operand frames read after a header are those of the command, and each fits its length field
(R70, R71, R75). -/
theorem eq_of_decodeFrames {hdr : Header} {bs rest : Bytes} {i : Instr}
    (h : decodeFrames hdr bs = .command (.legal i) rest) :
    i.header = hdr ∧ bs = i.frames.flatMap frameBytes ++ rest ∧ i.wf = true := by
  cases hdr with
  | construct =>
    rw [decodeFrames] at h
    split at h
    · next key _ htake =>
      obtain ⟨nonce, rfl, rfl, hnonce⟩ := eq_of_withFrame h
      obtain ⟨rfl, hkey⟩ := eq_of_takeFrame htake
      exact ⟨rfl, by simp [Instr.frames],
        Instr.wf_iff.2 (List.forall_mem_cons.2 ⟨hkey, List.forall_mem_singleton.2 hnonce⟩)⟩
    · cases h
  | encrypt =>
    obtain ⟨f, rfl, rfl, hf⟩ := eq_of_withFrame h
    exact ⟨rfl, by simp [Instr.frames], Instr.wf_iff.2 (List.forall_mem_singleton.2 hf)⟩
  | setctr =>
    obtain ⟨f, rfl, rfl, hf⟩ := eq_of_withFrame h
    exact ⟨rfl, by simp [Instr.frames], Instr.wf_iff.2 (List.forall_mem_singleton.2 hf)⟩
  | ldst =>
    obtain ⟨f, rfl, rfl, hf⟩ := eq_of_withFrame h
    exact ⟨rfl, by simp [Instr.frames], Instr.wf_iff.2 (List.forall_mem_singleton.2 hf)⟩
  | _ =>
    cases h
    exact ⟨rfl, rfl, rfl⟩

/-- The bytes a legal command was read from are the bytes the host sends for it (R70, R73). -/
theorem eq_of_decode {bs rest : Bytes} {i : Instr} (h : decode bs = .command (.legal i) rest) :
    i.wf = true ∧ bs = encode i ++ rest := by
  unfold decode at h
  split at h
  · cases h
  · next w _ htake =>
    split at h
    · next hdr hd =>
      obtain ⟨rfl, rfl, hwf⟩ := eq_of_decodeFrames h
      refine ⟨hwf, ?_⟩
      rw [eq_of_takeWord htake, decodeHeader_eq_ok_iff.1 hd, encode, List.append_assoc]
    · cases h

/-- Settles O5: header word and frames are each determined by the command read. -/
theorem legalCommandHasOneEncoding : Obligations.LegalCommandHasOneEncoding :=
  fun _ _ _ h => eq_of_decode h

end Sys2Proof

/-! ## Header words and the opcode table (30_encoding.md R73 to R77) -/

namespace Sys2Proof

open Sys2Proof.Machine

/-- A number masked in two parts: the k bits below, and the bits above. -/
theorem land_add_two_pow_mul (a : Nat) {k m : Nat} (n : Nat) (hm : m < 2 ^ k) :
    a &&& (m + 2 ^ k * n) = (a % 2 ^ k &&& m) + 2 ^ k * (a / 2 ^ k &&& n) := by
  rw [← Nat.mod_add_div (a &&& (m + 2 ^ k * n)) (2 ^ k), Nat.and_mod_two_pow, Nat.and_div_two_pow,
    Nat.add_mul_mod_self_left, Nat.mod_eq_of_lt hm, Nat.add_mul_div_left _ _ (Nat.two_pow_pos k),
    Nat.div_eq_of_lt hm, Nat.zero_add]

/-- The mask of format Q: the opcode and bits 31:24 (R73, R75). -/
theorem and_maskQ_toNat (w : Word) :
    (w &&& 0xFF0000FF).toNat = w.toNat % 2 ^ 8 + 2 ^ 24 * (w.toNat / 2 ^ 24) := by
  have hw := w.isLt
  have hmask : (0xFF0000FF : Word).toNat = (2 ^ 8 - 1) + 2 ^ 24 * (2 ^ 8 - 1) := by decide
  rw [BitVec.toNat_and, hmask, land_add_two_pow_mul _ _ (by decide), Nat.and_two_pow_sub_one_eq_mod,
    Nat.and_two_pow_sub_one_eq_mod]
  omega

/-- The mask of format R: the opcode and bits 31:20 (R73, R75). -/
theorem and_maskR_toNat (w : Word) :
    (w &&& 0xFFF000FF).toNat = w.toNat % 2 ^ 8 + 2 ^ 20 * (w.toNat / 2 ^ 20) := by
  have hw := w.isLt
  have hmask : (0xFFF000FF : Word).toNat = (2 ^ 8 - 1) + 2 ^ 20 * (2 ^ 12 - 1) := by decide
  rw [BitVec.toNat_and, hmask, land_add_two_pow_mul _ _ (by decide), Nat.and_two_pow_sub_one_eq_mod,
    Nat.and_two_pow_sub_one_eq_mod]
  omega

/-- The mask of format I: the opcode, bits 19:16 and bits 31:25 (R73, R75). -/
theorem and_maskI_toNat (w : Word) :
    (w &&& 0xFE0F00FF).toNat =
      w.toNat % 2 ^ 8 + 2 ^ 16 * (w.toNat / 2 ^ 16 % 2 ^ 4) + 2 ^ 25 * (w.toNat / 2 ^ 25) := by
  have hw := w.isLt
  have hmask : (0xFE0F00FF : Word).toNat =
      (2 ^ 8 - 1) + 2 ^ 16 * ((2 ^ 4 - 1) + 2 ^ 9 * (2 ^ 7 - 1)) := by decide
  rw [BitVec.toNat_and, hmask, land_add_two_pow_mul _ _ (by decide), land_add_two_pow_mul _ _ (by decide)]
  simp only [Nat.and_two_pow_sub_one_eq_mod]
  omega

/-- The mask of a header's row of opcode_table.json: the opcode and the reserved bits of its format
(R73, R75). -/
def Header.mask : Header → Word
  | .qr _ _ _ _ => 0xFF0000FF
  | .add _ _ _ => 0xFFF000FF
  | .xor _ _ _ => 0xFFF000FF
  | .rotl _ _ _ => 0xFE0F00FF
  | .construct => 0xFFFFFFFF
  | .encrypt => 0xFFFFFFFF
  | .setctr => 0xFFFFFFFF
  | .getctr => 0xFFFFFFFF
  | .getstat => 0xFFFFFFFF
  | .ldst => 0xFFFFFFFF
  | .rdst => 0xFFFFFFFF
  | .cround => 0xFFFFFFFF
  | .rround => 0xFFFFFFFF
  | .dround => 0xFFFFFFFF
  | .core => 0xFFFFFFFF
  | .hash => 0xFFFFFFFF

/-- The row of opcode_table.json a header belongs to; `row_mem_opcodeTable` and `exists_header_of_mem` tie it
to the table. -/
def Header.row (h : Header) : OpcodeRow := ⟨h.mnemonic, BitVec.ofNat 32 h.opcode, h.mask⟩

theorem Header.row_mem_opcodeTable (h : Header) : h.row ∈ opcodeTable := by
  cases h <;> simp [Header.row, Header.mnemonic, Header.opcode, Header.mask, opcodeTable]

/-- Each row of the table is a header's row. -/
theorem exists_header_of_mem {row : OpcodeRow} (hr : row ∈ opcodeTable) : ∃ h : Header, h.row = row := by
  have htable : opcodeTable =
      List.map Header.row [.construct, .encrypt, .setctr, .getctr, .getstat, .ldst, .rdst, .qr 0 0 0 0,
        .cround, .rround, .dround, .core, .hash, .add 0 0 0, .xor 0 0 0, .rotl 0 0 0] := rfl
  rw [htable] at hr
  obtain ⟨h, -, hrow⟩ := List.mem_map.1 hr
  exact ⟨h, hrow⟩

/-- The mask leaves of a header's word the opcode alone: operand fields stand where the mask is 0. -/
theorem encodeHeader_and_mask (h : Header) : encodeHeader h &&& h.mask = BitVec.ofNat 32 h.opcode := by
  have hw := encodeHeader_toNat h
  apply BitVec.eq_of_toNat_eq
  cases h with
  | qr a b c d =>
    rw [Header.mask, and_maskQ_toNat, hw, BitVec.toNat_ofNat, Header.opcode, Header.fields]
    omega
  | add rd rs1 rs2 =>
    rw [Header.mask, and_maskR_toNat, hw, BitVec.toNat_ofNat, Header.opcode, Header.fields]
    omega
  | xor rd rs1 rs2 =>
    rw [Header.mask, and_maskR_toNat, hw, BitVec.toNat_ofNat, Header.opcode, Header.fields]
    omega
  | rotl rd rs1 n =>
    rw [Header.mask, and_maskI_toNat, hw, BitVec.toNat_ofNat, Header.opcode, Header.fields]
    omega
  | _ => rfl

/-- Format N has no operand field: a word that the full mask takes to the pattern is the header's own. -/
theorem decodeHeader_of_full_mask {w : Word} {h : Header} (hf : h.fields = 0)
    (hw : w &&& 0xFFFFFFFF = BitVec.ofNat 32 h.opcode) : decodeHeader w = .ok h := by
  have hfull : w &&& 0xFFFFFFFF = w := BitVec.and_allOnes
  rw [decodeHeader_eq_ok_iff, encodeHeader, hf, Nat.add_zero, ← hw, hfull]

/-- A word that the mask of a row takes to the row's pattern is a command of that row: the opcode is the row's,
and the reserved bits are zero. -/
theorem exists_header_of_and_mask {w : Word} {h : Header} (hw : w &&& h.mask = BitVec.ofNat 32 h.opcode) :
    ∃ h', decodeHeader w = .ok h' ∧ h'.mnemonic = h.mnemonic := by
  have hn := congrArg BitVec.toNat hw
  cases h with
  | qr a b c d =>
    rw [Header.mask, and_maskQ_toNat, BitVec.toNat_ofNat, Header.opcode] at hn
    obtain ⟨_, hd, _, _, _, _, rfl, -⟩ := (headerWords_qr w (by omega)).1 (by unfold reservedQ; omega)
    exact ⟨_, hd, rfl⟩
  | add rd rs1 rs2 =>
    rw [Header.mask, and_maskR_toNat, BitVec.toNat_ofNat, Header.opcode] at hn
    obtain ⟨_, hd, _, _, _, rfl, -⟩ := (headerWords_add w (by omega)).1 (by unfold reservedR; omega)
    exact ⟨_, hd, rfl⟩
  | xor rd rs1 rs2 =>
    rw [Header.mask, and_maskR_toNat, BitVec.toNat_ofNat, Header.opcode] at hn
    obtain ⟨_, hd, _, _, _, rfl, -⟩ := (headerWords_xor w (by omega)).1 (by unfold reservedR; omega)
    exact ⟨_, hd, rfl⟩
  | rotl rd rs1 n =>
    rw [Header.mask, and_maskI_toNat, BitVec.toNat_ofNat, Header.opcode] at hn
    obtain ⟨_, hd, _, _, _, rfl, -⟩ := (headerWords_rotl w (by omega)).1 (by unfold reservedI; omega)
    exact ⟨_, hd, rfl⟩
  | _ => exact ⟨_, decodeHeader_of_full_mask rfl hw, rfl⟩

/-- Settles O6, header by header: each stands for its row of the table. -/
theorem legalHeadersAreTheOpcodeTable : Obligations.LegalHeadersAreTheOpcodeTable := by
  intro w
  constructor
  · intro h hd
    refine ⟨h.row, h.row_mem_opcodeTable, rfl, ?_⟩
    rw [decodeHeader_eq_ok_iff.1 hd]
    exact encodeHeader_and_mask h
  · intro row hrow hw
    obtain ⟨h, rfl⟩ := exists_header_of_mem hrow
    exact exists_header_of_and_mask hw

end Sys2Proof

/-! ## The step and the response (30_encoding.md R70 to R77, 60_exceptions.md R202) -/

namespace Sys2Proof.Machine

/-- Settles O7: a legal header word has its opcode in R75 and no reserved bit set (`toNat_of_decodeHeader`), so
the word is no legal one. -/
theorem illegalHeaderIsAnsweredAndChangesNothing : Obligations.IllegalHeaderIsAnsweredAndChangesNothing := by
  intro s w rest hp hs hc hbad
  cases hd : decodeHeader w with
  | error e => exact step_illegal hd hp hs hc
  | ok h =>
    exfalso
    have hw := toNat_of_decodeHeader hd
    simp only [List.mem_cons, List.not_mem_nil, or_false] at hbad
    cases h <;> simp only [Header.opcode, Header.fields] at hw <;> omega

/-- Settles O8: an idle engine turns to the command its channel holds. -/
theorem stepExecutesTheDecodedCommand : Obligations.StepExecutesTheDecodedCommand := by
  intro s i rest hp hs hd
  rw [step_of_idle hp hs, stepCommand, hd]
  rfl

/-- Settles O11: by what a step can do; a legal command always answers a state (`exec_effect`). -/
theorem noStepStopsTheEngine : Obligations.NoStepStopsTheEngine := by
  intro s
  rcases step_cases s with ⟨-, e⟩ | ⟨b, rest, -, -, e⟩ | ⟨-, -, -, e⟩ | ⟨w, rest, -, -, -, e⟩ |
    ⟨i, rest, -, -, -, e⟩
  · exact ⟨_, e⟩
  · exact ⟨_, e⟩
  · exact ⟨_, e⟩
  · exact ⟨_, e.trans (illegalHeader_eq _)⟩
  · obtain ⟨t, ht, -⟩ := exec_effect i (s.consume rest)
    exact ⟨t, e.trans ht⟩

/-- Settles O56: `step_of_sending` a byte, `run_sendAll` the whole response. -/
theorem responseIsSentBeforeTheNextCommand : Obligations.ResponseIsSentBeforeTheNextCommand :=
  fun _ hp => ⟨fun _ _ hs => step_of_sending hp hs, run_sendAll hp⟩

end Sys2Proof.Machine

/-! ## One response a command (30_encoding.md R70, R72, R75, 60_exceptions.md R202) -/

namespace Sys2Proof.Machine

/-- The lengths of the result frames a command sends on success (R75). -/
def resultLengths : Instr → List Nat
  | .encrypt m => [m.length]
  | .getctr => [8]
  | .getstat => [4]
  | .rdst => [64]
  | .construct _ _ => []
  | .setctr _ => []
  | .ldst _ => []
  | .qr _ _ _ _ => []
  | .cround => []
  | .rround => []
  | .dround => []
  | .core => []
  | .hash => []
  | .add _ _ _ => []
  | .xor _ _ _ => []
  | .rotl _ _ _ => []

theorem resultLengths_length (i : Instr) : (resultLengths i).length = i.header.framesOut := by
  cases i <;> rfl

/-- A response the command may send: success with its frames, or an error it can raise, with none (R202). -/
def IsResponse (i : Instr) (r : Resp) : Prop :=
  (r.code = 0x00 ∧ r.frames.map List.length = resultLengths i) ∨
    (r.frames = [] ∧ ∃ e ∈ possibleErrors i, r.code = e.code)

/-- The outcome answers a state in which one such response has been added to the bytes to be sent. -/
def Responds (i : Instr) (s : State) (o : Host.Outcome State Fault Refusal) : Prop :=
  ∃ (t : State) (r : Resp), o = .next t ∧ t.sending = s.sending ++ r.serialize ∧ IsResponse i r

section

variable {i : Instr} {s s' : State} (hs : s'.sending = s.sending)

include hs

theorem responds_reply {frames : List Bytes} (hf : frames.map List.length = resultLengths i) :
    Responds i s (reply frames s') :=
  ⟨_, ⟨0, frames⟩, reply_eq frames s', by rw [← hs], .inl ⟨rfl, hf⟩⟩

theorem responds_complete {frames : List Bytes} (hf : frames.map List.length = resultLengths i) :
    Responds i s (complete frames s') :=
  responds_reply (s' := s'.setLastErr ErrCode.ok.code) hs hf

theorem responds_raiseErr {e : ErrCode} (he : e ∈ possibleErrors i) : Responds i s (raiseErr e s') :=
  ⟨_, ⟨e.code, []⟩, raiseErr_eq e s', by rw [← hs], .inr ⟨rfl, e, he, rfl⟩⟩

end

/-- Every command sends one response of its own. -/
theorem exec_responds (i : Instr) (s : State) : Responds i s (exec i s) := by
  cases i with
  | construct k n =>
    show Responds _ s (execConstruct k n s)
    unfold execConstruct
    split_ifs
    · exact responds_raiseErr rfl (by simp [possibleErrors])
    · exact responds_raiseErr rfl (by simp [possibleErrors])
    · exact responds_complete (by simp) rfl
  | encrypt m =>
    show Responds _ s (execEncrypt m s)
    rcases execEncrypt_cases m s with ⟨-, he⟩ | ⟨-, -, he⟩ | ⟨-, -, he⟩ <;> rw [he]
    · exact responds_raiseErr rfl (by simp [possibleErrors])
    · exact responds_raiseErr rfl (by simp [possibleErrors])
    · refine responds_complete (by simp [State.afterEncrypt]) ?_
      exact congrArg (fun n => [n]) (cipherBytes_length m s)
  | setctr v =>
    show Responds _ s (execSetctr v s)
    unfold execSetctr
    split_ifs
    · exact responds_raiseErr rfl (by simp [possibleErrors])
    · exact responds_raiseErr rfl (by simp [possibleErrors])
    · exact responds_complete (by simp) rfl
  | getctr =>
    show Responds _ s (execGetctr s)
    unfold execGetctr
    split_ifs
    · exact responds_raiseErr rfl (by simp [possibleErrors])
    · exact responds_complete (by simp) rfl
  | ldst b =>
    show Responds _ s (execLdst b s)
    unfold execLdst
    split_ifs
    · exact responds_complete (by simp) rfl
    · exact responds_raiseErr rfl (by simp [possibleErrors])
  | qr a b c d =>
    show Responds _ s (execQr a b c d s)
    unfold execQr
    split_ifs
    · exact responds_complete (by simp) rfl
    · exact responds_raiseErr rfl (by simp [possibleErrors])
  | getstat => exact responds_reply rfl rfl
  | rdst => exact responds_complete rfl (by simp [resultLengths])
  | _ => exact responds_complete (by simp) rfl

/-- No error's code is the code of success (R201). -/
theorem code_ne_zero_of_possible {i : Instr} {e : ErrCode} (he : e ∈ possibleErrors i) : e.code ≠ 0x00 := by
  have hok : e ≠ .ok := by
    rintro rfl
    cases i <;> simp [possibleErrors] at he
  revert hok
  cases e <;> decide

/-- Settles O16: the response of `exec_responds`, whose frames are as many as their lengths. -/
theorem eachCommandSendsOneResponse : Obligations.EachCommandSendsOneResponse := by
  intro i s t h
  obtain ⟨u, r, hu, hsend, hr⟩ := exec_responds i s
  cases hu.symm.trans h
  refine ⟨r, hsend, ?_⟩
  rcases hr with ⟨hcode, hlen⟩ | ⟨hframes, e, he, hcode⟩
  · refine .inl ⟨hcode, ?_, ?_⟩
    · rw [← List.length_map (f := List.length), hlen, resultLengths_length]
    · rw [hlen]
      cases i <;> rfl
  · exact .inr ⟨hframes, e, he, hcode, hcode ▸ code_ne_zero_of_possible he⟩

end Sys2Proof.Machine

/-! ## The pseudo-instructions (30_encoding.md R80) -/

namespace Sys2Proof.Machine

/-- R100 at n = 0. -/
theorem rotl32_zero (v : Word) : rotl32 v 0 = v := by
  have hlow : v >>> 32 = 0 := BitVec.ushiftRight_eq_zero (Nat.le_refl 32)
  simp [rotl32, hlow]

/-- Zero bytes XORed with a sequence at least as long are its first bytes (R166). -/
theorem zipWith_xor_zeros (n : Nat) (ks : Bytes) (h : n ≤ ks.length) :
    List.zipWith (fun a b => a ^^^ b) (zeros n) ks = ks.take n := by
  induction n generalizing ks with
  | zero => rfl
  | succ n ih =>
    cases ks with
    | nil => simp at h
    | cons k ks =>
      have hk := ih ks (Nat.le_of_succ_le_succ h)
      simpa [zeros, List.replicate_succ] using hk

/-- The ciphertext of n zero bytes is the first n bytes of the keystream (R80, R166, R168). -/
theorem cipherBytes_zeros (n : Nat) (s : State) :
    cipherBytes (zeros n) s = (s.keystream ((n + 63) / 64)).take n := by
  have hblocks : nblocks (zeros n) = (n + 63) / 64 := by rw [nblocks, zeros_length]
  rw [cipherBytes, hblocks]
  apply zipWith_xor_zeros
  rw [State.keystream, keystream_length]
  omega

/-- Settles O26: each pseudo-instruction by the law of the command it expands to. -/
theorem pseudoInstructionsDoWhatTheirGroundsSay : Obligations.PseudoInstructionsDoWhatTheirGroundsSay := by
  refine ⟨?mov, ?clr, fun _ _ => rfl, ?keystream, ?resetctr⟩
  case mov =>
    intro rd rs s t h
    cases (exec_rotl rd rs 0 s).symm.trans h
    exact (set_reg_self _ _ _).trans (rotl32_zero _)
  case clr =>
    intro rd s t h
    cases (exec_xor rd rd rd s).symm.trans h
    exact (set_reg_self _ _ _).trans (BitVec.xor_self ..)
  case keystream =>
    intro n s hv hn
    have hblocks : ¬ s.blocksLeft < nblocks (zeros n) := by
      rw [nblocks, zeros_length]
      omega
    refine ⟨_, (exec_encrypt (zeros n) s).trans ((if_neg (by simp [hv])).trans (if_neg hblocks)), ?_⟩
    simp only [zeros_length, cipherBytes_zeros]
    rfl
  case resetctr =>
    intro s hv
    refine ⟨_, (exec_setctr (zeros 8) s).trans ((if_neg (by simp)).trans (if_neg (by simp [hv]))), ?_, rfl⟩
    show ctrOfBytes (zeros 8) = 0
    decide

end Sys2Proof.Machine

/-! ## Words and lines written out from the spec (30_encoding.md R73 to R80, 95_test_vectors.md section 2) -/

namespace Sys2Proof.Machine

/-- Settles O3, by running the decoder on each word. -/
theorem decodingOfWordsWrittenFromTheSpec : Obligations.DecodingOfWordsWrittenFromTheSpec := by
  unfold Obligations.DecodingOfWordsWrittenFromTheSpec
  decide

/-- Settles O54, by running the assembler on each line. -/
theorem assemblerLinesOfTheSpec : Obligations.AssemblerLinesOfTheSpec := by
  unfold Obligations.AssemblerLinesOfTheSpec
  decide

end Sys2Proof.Machine

/-! ## Word functions and the ALU commands (40_alu.md R100 to R107) -/

namespace Sys2Proof.Machine

/-- R100's formula in unbounded naturals: the word operations agree with it, since the right shift of a word
stays below 2^32. -/
theorem rotl32_toNat (v : Word) (n : Nat) :
    (rotl32 v n).toNat = ((v.toNat <<< n) ||| (v.toNat >>> (32 - n))) % 2 ^ 32 := by
  have hright : v.toNat >>> (32 - n) < 2 ^ 32 := Nat.lt_of_le_of_lt (Nat.shiftRight_le _ _) v.isLt
  rw [rotl32, BitVec.toNat_or, BitVec.toNat_shiftLeft, BitVec.toNat_ushiftRight, Nat.or_mod_two_pow,
    Nat.mod_eq_of_lt hright]

/-- R100's bit rule: the bits below n come from the right shift, the others from the left shift. -/
theorem rotl32_getLsbD (v : Word) {n i : Nat} (hn : n < 32) (hi : i < 32) :
    (rotl32 v n).getLsbD i = v.getLsbD ((i + 32 - n) % 32) := by
  rw [rotl32, BitVec.getLsbD_or, BitVec.getLsbD_shiftLeft, BitVec.getLsbD_ushiftRight]
  by_cases hin : i < n
  · have hsrc : (i + 32 - n) % 32 = 32 - n + i := by omega
    simp [hsrc, hin]
  · have hsrc : (i + 32 - n) % 32 = i - n := by omega
    have hhigh : v.getLsbD (32 - n + i) = false := BitVec.getLsbD_of_ge _ _ (by omega)
    simp [hsrc, hin, hi, hhigh]

/-- Settles O22, by the formula and the bit rule. -/
theorem rotlMovesEveryBit : Obligations.RotlMovesEveryBit :=
  fun v n hn => ⟨fun _ => rotl32_toNat v n, rotl32_zero v, fun _ => rotl32_getLsbD v hn⟩

/-- What an ALU command does: it writes v to RD and changes no other word; LAST_ERR becomes 0x00, the response
is the response word alone, and nothing else changes. -/
def WritesWord (rd : Reg) (v : Word) (s : State) (o : Host.Outcome State Fault Refusal) : Prop :=
  ∃ t, o = .next t ∧ t.reg rd = v ∧ (∀ r, r ≠ rd → t.reg r = s.reg r) ∧
    t = { s with x := t.x, lastErr := 0x00, sending := s.sending ++ [0, 0, 0, 0] }

theorem writesWord_set (rd : Reg) (v : Word) (s : State) :
    WritesWord rd v s (.next { s with
      x := s.x.set rd v, lastErr := 0, sending := s.sending ++ [0, 0, 0, 0] }) :=
  ⟨_, rfl, set_reg_self s.x rd v, fun _ hr => set_reg_of_ne s.x v hr, rfl⟩

theorem exec_add_writesWord (rd rs1 rs2 : Reg) (s : State) :
    WritesWord rd (add32 (s.reg rs1) (s.reg rs2)) s (exec (.add rd rs1 rs2) s) := by
  rw [exec_add]
  exact writesWord_set rd _ s

theorem exec_xor_writesWord (rd rs1 rs2 : Reg) (s : State) :
    WritesWord rd (xor32 (s.reg rs1) (s.reg rs2)) s (exec (.xor rd rs1 rs2) s) := by
  rw [exec_xor]
  exact writesWord_set rd _ s

theorem exec_rotl_writesWord (rd rs1 : Reg) (n : Fin 32) (s : State) :
    WritesWord rd (rotl32 (s.reg rs1) n.val) s (exec (.rotl rd rs1 n) s) := by
  rw [exec_rotl]
  exact writesWord_set rd _ s

/-- Settles O23: the word written is the wrapping sum. -/
theorem addWritesTheWrappingSum : Obligations.AddWritesTheWrappingSum := by
  refine ⟨headerWords_add, fun rd rs1 rs2 s => ⟨encodeHeader_and_mask (.add rd rs1 rs2), ?_⟩⟩
  obtain ⟨t, ht, hrd, hother, hframe⟩ := exec_add_writesWord rd rs1 rs2 s
  refine ⟨t, ht, ?_, hother, hframe⟩
  rw [hrd]
  exact BitVec.toNat_add ..

/-- Settles O24: the word written is the exclusive-or, taken bit by bit. -/
theorem xorWritesTheExclusiveOr : Obligations.XorWritesTheExclusiveOr := by
  refine ⟨headerWords_xor, fun rd rs1 rs2 s => ⟨encodeHeader_and_mask (.xor rd rs1 rs2), ?_⟩⟩
  obtain ⟨t, ht, hrd, hother, hframe⟩ := exec_xor_writesWord rd rs1 rs2 s
  refine ⟨t, ht, fun i => ?_, hother, hframe⟩
  rw [hrd]
  exact BitVec.getLsbD_xor ..

/-- Settles O25: the word written is the rotated source, whose bits `rotl32_getLsbD` gives. -/
theorem rotlWritesTheRotatedWord : Obligations.RotlWritesTheRotatedWord := by
  refine ⟨headerWords_rotl, fun rd rs1 n s => ⟨encodeHeader_and_mask (.rotl rd rs1 n), ?_⟩⟩
  obtain ⟨t, ht, hrd, hother, hframe⟩ := exec_rotl_writesWord rd rs1 n s
  refine ⟨t, ht, fun i hi => ?_, hother, hframe⟩
  rw [hrd]
  exact rotl32_getLsbD _ n.isLt hi

/-- A lane's four positions and a fifth register, all different. -/
theorem distinct_of_nodup {a b c d t : Reg} (h : [a, b, c, d, t].Nodup) :
    Lane.Distinct ⟨a, b, c, d⟩ ∧ a ≠ t ∧ b ≠ t ∧ c ≠ t ∧ d ≠ t := by
  simp only [List.nodup_cons, List.mem_cons, List.not_mem_nil, or_false, not_or, not_false_eq_true,
    List.nodup_nil, and_true] at h
  obtain ⟨⟨hab, hac, had, hat⟩, ⟨hbc, hbd, hbt⟩, ⟨hcd, hct⟩, hdt⟩ := h
  exact ⟨⟨hab, hac, had, hbc, hbd, hcd⟩, hat, hbt, hct, hdt⟩

/-- One line of the quarter-round by three commands, `w ^= rotl32(p +32 q, n)`: the rotated sum passes through
the scratch register t, and no word but w and t changes (R107, R120). -/
theorem execAll_quarterRoundLine {t w : Reg} (htw : w ≠ t) (p q : Reg) (n : Fin 32) (is : List Instr)
    (s : State) :
    ∃ u, execAll (.add t p q :: .rotl t t n :: .xor w w t :: is) s = execAll is u ∧
      u.reg w = xor32 (s.reg w) (rotl32 (add32 (s.reg p) (s.reg q)) n.val) ∧
      u.reg t = rotl32 (add32 (s.reg p) (s.reg q)) n.val ∧
      ∀ r, r ≠ w → r ≠ t → u.reg r = s.reg r := by
  obtain ⟨s1, h1, sum, keep1, -⟩ := exec_add_writesWord t p q s
  obtain ⟨s2, h2, rot, keep2, -⟩ := exec_rotl_writesWord t t n s1
  obtain ⟨u, h3, xored, keep3, -⟩ := exec_xor_writesWord w w t s2
  rw [sum] at rot
  refine ⟨u, by simp only [execAll, h1, h2, h3], ?_, ?_, fun r hw ht => ?_⟩
  · rw [xored, rot, keep2 w htw, keep1 w htw]
  · rw [keep3 t htw.symm, rot]
  · rw [keep3 r hw, keep2 r ht, keep1 r ht]

/-- The twelve commands of R107 compute the quarter-round of their four words, line by line, leave the last
rotated sum in t, and change no other word. -/
theorem execAll_quarterRound {a b c d t : Reg} (hnd : [a, b, c, d, t].Nodup) (s : State) :
    ∃ u,
      execAll
        [.add t a d, .rotl t t 7, .xor b b t, .add t b a, .rotl t t 9, .xor c c t,
         .add t c b, .rotl t t 13, .xor d d t, .add t d c, .rotl t t 18, .xor a a t] s = .next u ∧
      (u.reg a, u.reg b, u.reg c, u.reg d) = quarterRound (s.reg a) (s.reg b) (s.reg c) (s.reg d) ∧
      u.reg t = rotl32 (add32 (u.reg d) (u.reg c)) 18 ∧
      ∀ r, r ∉ [a, b, c, d] → r ≠ t → u.reg r = s.reg r := by
  obtain ⟨⟨hab, hac, had, hbc, hbd, hcd⟩, hat, hbt, hct, hdt⟩ := distinct_of_nodup hnd
  obtain ⟨s1, e1, hb, -, keep1⟩ := execAll_quarterRoundLine hbt a d 7 _ s
  obtain ⟨s2, e2, hc, -, keep2⟩ := execAll_quarterRoundLine hct b a 9 _ s1
  obtain ⟨s3, e3, hd, -, keep3⟩ := execAll_quarterRoundLine hdt c b 13 _ s2
  obtain ⟨u, e4, ha, ht, keep4⟩ := execAll_quarterRoundLine hat d c 18 [] s3
  refine ⟨u, (e1.trans e2).trans (e3.trans e4), ?words, ?scratch, fun r hr hrt => ?others⟩
  case words =>
    have ub : u.reg b = s1.reg b := by
      rw [keep4 b hab.symm hbt, keep3 b hbd hbt, keep2 b hbc hbt]
    have uc : u.reg c = s2.reg c := by
      rw [keep4 c hac.symm hct, keep3 c hcd hct]
    have ud : u.reg d = s3.reg d := keep4 d had.symm hdt
    have a1 : s1.reg a = s.reg a := keep1 a hab hat
    have a3 : s3.reg a = s.reg a := by
      rw [keep3 a had hat, keep2 a hac hat, a1]
    have b2 : s2.reg b = s1.reg b := keep2 b hbc hbt
    have c1 : s1.reg c = s.reg c := keep1 c hbc.symm hct
    have c3 : s3.reg c = s2.reg c := keep3 c hcd hct
    have d2 : s2.reg d = s.reg d := by
      rw [keep2 d hcd.symm hdt, keep1 d hbd.symm hdt]
    rw [a1, c1] at hc
    rw [b2, d2] at hd
    rw [a3, c3] at ha
    rw [ub, uc, ud, ha, hd, hc, hb]
    rfl
  case scratch =>
    rw [ht, keep4 d had.symm hdt, keep4 c hac.symm hct]
    rfl
  case others =>
    simp only [List.mem_cons, List.not_mem_nil, or_false, not_or] at hr
    obtain ⟨hra, hrb, hrc, hrd⟩ := hr
    rw [keep4 r hra hrt, keep3 r hrd hrt, keep2 r hrc hrt, keep1 r hrb hrt]

/-- QR on four distinct registers writes the quarter-round of their words and changes no other word (R132). -/
theorem exec_qr_words {a b c d : Reg} (h : Lane.Distinct ⟨a, b, c, d⟩) (s : State) :
    ∃ v, exec (.qr a b c d) s = .next v ∧
      (v.reg a, v.reg b, v.reg c, v.reg d) = quarterRound (s.reg a) (s.reg b) (s.reg c) (s.reg d) ∧
      ∀ r, r ∉ [a, b, c, d] → v.reg r = s.reg r := by
  refine ⟨_, (exec_qr a b c d s).trans (if_pos ((pairwiseDistinct_iff a b c d).2 h)), ?_, fun r =>
    qrLane_of_notMem (l := ⟨a, b, c, d⟩) s.x⟩
  exact Prod.ext (qrLane_a s.x h) (Prod.ext (qrLane_b s.x h) (Prod.ext (qrLane_c s.x h) (qrLane_d s.x)))

/-- Settles O27: the twelve commands and QR leave the same quarter-round in a, b, c and d, and every word but
these and t as it was. -/
theorem twelveAluCommandsComputeTheQuarterRound :
    Obligations.TwelveAluCommandsComputeTheQuarterRound := by
  intro a b c d t s hnd
  obtain ⟨hdistinct, -⟩ := distinct_of_nodup hnd
  obtain ⟨u, hu, uwords, uscratch, ukeep⟩ := execAll_quarterRound hnd s
  obtain ⟨v, hv, vwords, vkeep⟩ := exec_qr_words hdistinct s
  have hwords := uwords.trans vwords.symm
  simp only [Prod.mk.injEq] at hwords
  obtain ⟨ha, hb, hc, hd⟩ := hwords
  refine ⟨u, v, hu, hv, fun r hrt => ?_, by rw [uscratch, hc, hd]⟩
  by_cases hr : r ∈ [a, b, c, d]
  · simp only [List.mem_cons, List.not_mem_nil, or_false] at hr
    rcases hr with rfl | rfl | rfl | rfl
    · exact ha
    · exact hb
    · exact hc
    · exact hd
  · rw [ukeep r hr hrt, vkeep r hr]

end Sys2Proof.Machine

/-! ## The quarter-round and its inverse (41_rounds.md R120, R121) -/

namespace Sys2Proof.Machine

/-- R102: a word XORed twice with the same word is itself. -/
theorem xor32_xor32_self (v w : Word) : xor32 (xor32 v w) w = v := by
  rw [xor32, xor32, BitVec.xor_assoc, BitVec.xor_self, BitVec.xor_zero]

/-- Settles O28: each line of the one undoes the line of the other with the same rotated sum, in the reverse
order. -/
theorem quarterRoundHasTheStatedInverse : Obligations.QuarterRoundHasTheStatedInverse := by
  intro a b c d a' b' c' d'
  constructor
  · intro h
    cases h
    simp only [quarterRoundInv, xor32_xor32_self]
  · intro h
    cases h
    simp only [quarterRound, xor32_xor32_self]

/-- Two 4-tuples of words with the same quarter-round are the same. -/
theorem quarterRound_inj {a b c d p q r t : Word} (h : quarterRound a b c d = quarterRound p q r t) :
    (a, b, c, d) = (p, q, r, t) := by
  have hp := (quarterRoundHasTheStatedInverse p q r t _ _ _ _).1 rfl
  exact ((quarterRoundHasTheStatedInverse a b c d _ _ _ _).1 h).symm.trans hp

end Sys2Proof.Machine

/-! ## The lanes of a round (41_rounds.md R122 to R126) -/

namespace Sys2Proof.Machine

/-- The four words at a lane's positions. -/
def laneWords (l : Lane) (x : StateMatrix) : Word × Word × Word × Word := (x[l.a], x[l.b], x[l.c], x[l.d])

theorem laneWords_eq_iff {l : Lane} {x y : StateMatrix} :
    laneWords l x = laneWords l y ↔ ∀ r ∈ l.positions, x[r] = y[r] := by
  simp [laneWords, Lane.positions]

/-- A lane's quarter-round reads the lane's words alone. -/
theorem laneQr_congr {l : Lane} {x y : StateMatrix} (h : laneWords l x = laneWords l y) :
    laneQr l x = laneQr l y := by
  simp only [laneWords, Prod.mk.injEq] at h
  obtain ⟨ha, hb, hc, hd⟩ := h
  rw [laneQr, laneQr, ha, hb, hc, hd]

/-- A lane's quarter-round determines the lane's words (R121). -/
theorem laneWords_of_laneQr {l : Lane} {x y : StateMatrix} (h : laneQr l x = laneQr l y) :
    laneWords l x = laneWords l y :=
  quarterRound_inj h

/-- A quarter-round leaves in its lane the quarter-round of the words as they were (R120, R123). -/
theorem laneWords_qrLane {l : Lane} (h : l.Distinct) (x : StateMatrix) :
    laneWords l (qrLane l x) = laneQr l x :=
  Prod.ext (qrLane_a x h) (Prod.ext (qrLane_b x h) (Prod.ext (qrLane_c x h) (qrLane_d x)))

theorem Lane.nodup_positions_iff (l : Lane) : l.positions.Nodup ↔ l.Distinct := by
  simp [Lane.positions, Lane.Distinct, and_assoc]

/-- The position sets of a round's four quarter-rounds: each has four words, no two meet, and they cover all
16 words (R126). -/
structure LanesPartition (lane : Fin 4 → Lane) : Prop where
  distinct : ∀ j, (lane j).Distinct
  cover : ∀ r : Reg, ∃ j, r ∈ (lane j).positions
  disjoint : ∀ i j, ∀ r ∈ (lane i).positions, r ∈ (lane j).positions → i = j

theorem lanesPartition_cidx (order : ColumnOrder) : LanesPartition (cidx order) where
  distinct := cidx_distinct order
  cover := by cases order <;> decide
  disjoint := by cases order <;> decide

theorem lanesPartition_ridx : LanesPartition ridx where
  distinct := ridx_distinct
  cover := by decide
  disjoint := by decide

theorem roundOver_cons (lane : Fin 4 → Lane) (k : Fin 4) (ks : List (Fin 4)) (x : StateMatrix) :
    roundOver lane (k :: ks) x = roundOver lane ks (qrLane (lane k) x) := rfl

namespace LanesPartition

variable {lane : Fin 4 → Lane} (hl : LanesPartition lane)

include hl

theorem existsUnique (r : Reg) : ∃! j, r ∈ (lane j).positions := by
  obtain ⟨j, hj⟩ := hl.cover r
  exact ⟨j, hj, fun i hi => hl.disjoint i j r hi hj⟩

theorem nodup (j : Fin 4) : (lane j).positions.Nodup :=
  (lane j).nodup_positions_iff.2 (hl.distinct j)

/-- Two matrices are equal when their words are, lane by lane. -/
theorem matrix_ext {x y : StateMatrix} (h : ∀ j, laneWords (lane j) x = laneWords (lane j) y) : x = y := by
  apply StateMatrix.ext_reg
  intro r
  obtain ⟨j, hj⟩ := hl.cover r
  exact laneWords_eq_iff.1 (h j) r hj

/-- The quarter-round of one lane changes no word of another. -/
theorem laneWords_qrLane_of_ne {j k : Fin 4} (hjk : j ≠ k) (x : StateMatrix) :
    laneWords (lane j) (qrLane (lane k) x) = laneWords (lane j) x :=
  laneWords_eq_iff.2 fun r hr => qrLane_of_notMem x fun hk => hjk (hl.disjoint j k r hr hk)

/-- Quarter-rounds on other lanes change no word of a lane. -/
theorem laneWords_roundOver_of_notMem {j : Fin 4} {taken : List (Fin 4)} (hj : j ∉ taken) (x : StateMatrix) :
    laneWords (lane j) (roundOver lane taken x) = laneWords (lane j) x := by
  induction taken generalizing x with
  | nil => rfl
  | cons k ks ih =>
    obtain ⟨hk, hks⟩ := List.ne_and_not_mem_of_not_mem_cons hj
    rw [roundOver_cons, ih hks, hl.laneWords_qrLane_of_ne hk]

/-- Quarter-rounds on different lanes, one after another, leave in each lane taken the quarter-round of the
words as they were before the first of them (R126). -/
theorem laneWords_roundOver {j : Fin 4} {taken : List (Fin 4)} (hn : taken.Nodup) (hj : j ∈ taken)
    (x : StateMatrix) : laneWords (lane j) (roundOver lane taken x) = laneQr (lane j) x := by
  induction taken generalizing x with
  | nil => exact absurd hj List.not_mem_nil
  | cons k ks ih =>
    obtain ⟨hk, hks⟩ := List.nodup_cons.1 hn
    rw [roundOver_cons]
    rcases List.mem_cons.1 hj with rfl | hmem
    · rw [hl.laneWords_roundOver_of_notMem hk, laneWords_qrLane (hl.distinct j)]
    · have hjk : j ≠ k := fun e => hk (e ▸ hmem)
      rw [ih hks hmem, laneQr_congr (hl.laneWords_qrLane_of_ne hjk x)]

/-- A round leaves in each lane the quarter-round of the words as they were (R123, R125). -/
theorem laneWords_round (j : Fin 4) (x : StateMatrix) :
    laneWords (lane j) (roundOver lane laneOrder x) = laneQr (lane j) x :=
  hl.laneWords_roundOver (by decide) (by revert j; decide) x

/-- A round in another order is the same round (R126). -/
theorem roundOver_perm {taken : List (Fin 4)} (hp : taken.Perm laneOrder) (x : StateMatrix) :
    roundOver lane taken x = roundOver lane laneOrder x := by
  apply hl.matrix_ext
  intro j
  have hn : taken.Nodup := hp.nodup_iff.2 (by decide)
  have hj : j ∈ taken := hp.mem_iff.2 (by revert j; decide)
  rw [hl.laneWords_roundOver hn hj, hl.laneWords_round]

/-- A round is one to one, because each of its quarter-rounds is (R121). -/
theorem round_injective : Function.Injective (roundOver lane laneOrder) := by
  intro x y h
  apply hl.matrix_ext
  intro j
  apply laneWords_of_laneQr
  rw [← hl.laneWords_round, ← hl.laneWords_round, h]

end LanesPartition

/-- Settles O31: both families of lanes are partitions, and in a round over such a family each lane sees the words
as they were, whatever the order. -/
theorem lanesOfARoundAreIndependent : Obligations.LanesOfARoundAreIndependent := by
  intro order
  have hcol := lanesPartition_cidx order
  have hrow := lanesPartition_ridx
  exact ⟨hcol.existsUnique, hcol.nodup, hrow.existsUnique, hrow.nodup,
    fun _ x hp => ⟨hcol.roundOver_perm hp x, hrow.roundOver_perm hp x⟩,
    fun x j => ⟨hcol.laneWords_round j x, hrow.laneWords_round j x⟩⟩

end Sys2Proof.Machine

/-! ## The rounds and Core as maps of matrices (41_rounds.md R121, R123 to R129) -/

namespace Sys2Proof.Machine

/-- R127. -/
theorem doubleRound_eq_comp (order : ColumnOrder) : doubleRound order = rowRound ∘ columnRound order := by
  funext x
  rw [doubleRound, Function.comp_apply]

/-- n double-rounds are the double-round iterated n times (R128). -/
theorem doubleRoundsN_eq_iterate (order : ColumnOrder) (n : Nat) :
    doubleRoundsN order n = (doubleRound order)^[n] := by
  induction n with
  | zero => rfl
  | succ n ih =>
    funext x
    rw [doubleRoundsN, ih, Function.iterate_succ_apply]

/-- Core is ten double-rounds (R128). -/
theorem coreRounds_eq_iterate (order : ColumnOrder) : coreRounds order = (doubleRound order)^[10] :=
  doubleRoundsN_eq_iterate order 10

/-- There are finitely many matrices: 16 words each. -/
theorem finite_stateMatrix : Finite StateMatrix :=
  Finite.of_injective (fun (m : StateMatrix) (r : Reg) => m[r]) fun _ _ h =>
    StateMatrix.ext_reg fun r => congrFun h r

/-- A round is one to one on finitely many matrices, so it is onto (R121). -/
theorem LanesPartition.round_bijective {lane : Fin 4 → Lane} (hl : LanesPartition lane) :
    Function.Bijective (roundOver lane laneOrder) :=
  have := finite_stateMatrix
  Finite.injective_iff_bijective.1 hl.round_injective

/-- Settles O29: each round is a bijection, and the double-round and Core are rounds one after another. -/
theorem roundsAndCoreAreBijections : Obligations.RoundsAndCoreAreBijections := by
  intro order
  have hcol : Function.Bijective (columnRound order) := (lanesPartition_cidx order).round_bijective
  have hrow : Function.Bijective rowRound := lanesPartition_ridx.round_bijective
  have hdouble : Function.Bijective (doubleRound order) := by
    rw [doubleRound_eq_comp]
    exact hrow.comp hcol
  have hcore : Function.Bijective (coreRounds order) := by
    rw [coreRounds_eq_iterate]
    exact hdouble.iterate 10
  exact ⟨hcol, hrow, hdouble, hcore⟩

section

variable {g : StateMatrix → StateMatrix} (hg : ∀ l, Function.Commute (qrLane l) g)

include hg

/-- What commutes with every quarter-round commutes with every round. -/
theorem roundOver_commute (lane : Fin 4 → Lane) (taken : List (Fin 4)) :
    Function.Commute (roundOver lane taken) g := by
  intro x
  induction taken generalizing x with
  | nil => rfl
  | cons k ks ih => rw [roundOver_cons, roundOver_cons, hg (lane k) x, ih]

/-- What commutes with every quarter-round commutes with Core. -/
theorem coreRounds_commute (order : ColumnOrder) : Function.Commute (coreRounds order) g := by
  have hcol : Function.Commute (columnRound order) g := roundOver_commute hg (cidx order) laneOrder
  have hrow : Function.Commute rowRound g := roundOver_commute hg ridx laneOrder
  rw [coreRounds_eq_iterate, doubleRound_eq_comp]
  exact (hrow.comp_left hcol).iterate_left 10

end

/-! ### Flipping every top bit -/

/-- A word with its top bit flipped. -/
def flipTop (w : Word) : Word := w ^^^ 0x80000000

theorem flipTop_ne (w : Word) : flipTop w ≠ w := by
  intro h
  have htop := congrArg (BitVec.getLsbD · 31) h
  simp [flipTop] at htop

/-- Flipping the top bit is adding 2^31, since the carry out of bit 31 is dropped. -/
theorem flipTop_eq_add (w : Word) : flipTop w = w + 0x80000000 := by
  have hw := w.isLt
  have hlow : (w.toNat ^^^ 2 ^ 31) % 2 ^ 31 = w.toNat % 2 ^ 31 := by
    rw [Nat.xor_mod_two_pow, Nat.mod_self, Nat.xor_zero]
  have hhigh : (w.toNat ^^^ 2 ^ 31) / 2 ^ 31 = w.toNat / 2 ^ 31 ^^^ 1 := by
    rw [Nat.xor_div_two_pow, Nat.div_self (by decide)]
  have hnat : (flipTop w).toNat = w.toNat ^^^ 2 ^ 31 := BitVec.toNat_xor ..
  apply BitVec.eq_of_toNat_eq
  rw [hnat, BitVec.toNat_add, show (0x80000000 : Word).toNat = 2 ^ 31 from rfl]
  have htop : w.toNat / 2 ^ 31 = 0 ∨ w.toNat / 2 ^ 31 = 1 := by omega
  rcases htop with h | h
  · rw [h, Nat.zero_xor] at hhigh
    omega
  · rw [h, Nat.xor_self] at hhigh
    omega

/-- Two flipped top bits cancel in a wrapping sum (R101). -/
theorem add32_flipTop (a b : Word) : add32 (flipTop a) (flipTop b) = add32 a b := by
  rw [flipTop_eq_add, flipTop_eq_add, add32, add32]
  bv_omega

theorem xor32_flipTop (a v : Word) : xor32 (flipTop a) v = flipTop (xor32 a v) := by
  simp only [xor32, flipTop]
  ac_rfl

/-- Each line of the quarter-round adds two flipped words, and so flips the word it writes (R120). -/
theorem quarterRound_flipTop (a b c d : Word) :
    quarterRound (flipTop a) (flipTop b) (flipTop c) (flipTop d) =
      Prod.map flipTop (Prod.map flipTop (Prod.map flipTop flipTop)) (quarterRound a b c d) := by
  simp only [quarterRound, add32_flipTop, xor32_flipTop, Prod.map_apply]

theorem map_reg (f : Word → Word) (x : StateMatrix) (r : Reg) : (x.map f)[r] = f x[r] := by simp

theorem qrLane_flipTop (l : Lane) : Function.Commute (qrLane l) (Vector.map flipTop) := by
  intro x
  have hqr : laneQr l (x.map flipTop) =
      Prod.map flipTop (Prod.map flipTop (Prod.map flipTop flipTop)) (laneQr l x) := by
    simp only [laneQr, map_reg, quarterRound_flipTop]
  simp only [qrLane_eq, hqr, Vector.map_set, Prod.map_fst, Prod.map_snd]

theorem feedForward_reg (y j : StateMatrix) (r : Reg) : (feedForward y j)[r] = add32 y[r] j[r] := by
  simp [feedForward]

/-- Settles O30: Core of the flipped matrix is the flipped Core, and the feed-forward adds two flipped words. -/
theorem hashIsNotABijection : Obligations.HashIsNotABijection := by
  intro order x
  constructor
  · intro h
    have hword := congrArg (fun m : StateMatrix => m[(0 : Reg)]) h
    exact flipTop_ne x[(0 : Reg)] ((map_reg flipTop x 0).symm.trans hword)
  · show feedForward (coreRounds order (x.map flipTop)) (x.map flipTop) = feedForward (coreRounds order x) x
    apply StateMatrix.ext_reg
    intro r
    rw [coreRounds_commute qrLane_flipTop order x]
    simp only [feedForward_reg, map_reg, add32_flipTop]

/-! ### The all-zero matrix -/

theorem quarterRound_zero : quarterRound 0 0 0 0 = (0, 0, 0, 0) := by decide

/-- A quarter-round of the all-zero matrix, as one that commutes with the constant map to this matrix. -/
theorem qrLane_zero (l : Lane) :
    Function.Commute (qrLane l) (Function.const StateMatrix (Vector.replicate 16 0)) := by
  intro x
  have hqr : laneQr l (Vector.replicate 16 0) = (0, 0, 0, 0) := by
    simpa [laneQr] using quarterRound_zero
  simp only [Function.const_apply, qrLane_eq, hqr, Vector.set_replicate_self]

/-- Settles O39: the rounds and Core keep what every quarter-round keeps, and the feed-forward adds zeros. -/
theorem zeroMatrixIsAFixedPoint : Obligations.ZeroMatrixIsAFixedPoint := by
  refine ⟨quarterRound_zero, fun order => ?_⟩
  have hcore : coreRounds order (Vector.replicate 16 0) = Vector.replicate 16 0 :=
    coreRounds_commute qrLane_zero order (Vector.replicate 16 0)
  refine ⟨roundOver_commute qrLane_zero (cidx order) laneOrder (Vector.replicate 16 0),
    roundOver_commute qrLane_zero ridx laneOrder (Vector.replicate 16 0), hcore, ?_⟩
  rw [hashMatrix, hcore, feedForward, Vector.zipWith_replicate]
  rfl

end Sys2Proof.Machine

/-! ## The matrix commands (41_rounds.md R132 to R137) -/

namespace Sys2Proof.Machine

/-- Settles O32: `exec_qr_words` on distinct selectors; with a repeat QR's own test fails. -/
theorem qrTransformsFourDistinctWordsOrRefuses : Obligations.QrTransformsFourDistinctWordsOrRefuses := by
  refine ⟨headerWords_qr, fun a b c d s =>
    ⟨encodeHeader_and_mask (.qr a b c d), fun hn => ?_, fun hn => ?_⟩⟩
  · have hd : Lane.Distinct ⟨a, b, c, d⟩ := (Lane.nodup_positions_iff ⟨a, b, c, d⟩).1 hn
    obtain ⟨t, ht, hwords, hkeep⟩ := exec_qr_words hd s
    refine ⟨t, ht, hwords, hkeep, ?_⟩
    rw [exec_qr, if_pos ((pairwiseDistinct_iff a b c d).2 hd)] at ht
    cases ht
    rfl
  · have hd : ¬ pairwiseDistinct a b c d = true := fun h =>
      hn ((Lane.nodup_positions_iff ⟨a, b, c, d⟩).2 ((pairwiseDistinct_iff a b c d).1 h))
    exact (exec_qr a b c d s).trans (if_neg hd)

/-- A list of commands goes on from the state its first command leaves (R63). -/
theorem execAll_of_next {i : Instr} {s t : State} (is : List Instr) (h : exec i s = .next t) :
    execAll (i :: is) s = execAll is t := by
  rw [execAll, h]

/-- What a round leaves at a lane's positions written out as a list. -/
theorem LanesPartition.round_at {lane : Fin 4 → Lane} (hl : LanesPartition lane) (x : StateMatrix)
    {a b c d : Reg} (h : ∃ j, [a, b, c, d] = (lane j).positions) :
    ((roundOver lane laneOrder x)[a], (roundOver lane laneOrder x)[b], (roundOver lane laneOrder x)[c],
      (roundOver lane laneOrder x)[d]) = quarterRound x[a] x[b] x[c] x[d] := by
  obtain ⟨j, hj⟩ := h
  cases hj
  exact hl.laneWords_round j x

/-- R122's table for the build PLAIN. -/
theorem mem_cidx_plain :
    ∀ l ∈ ([[0, 4, 8, 12], [1, 5, 9, 13], [2, 6, 10, 14], [3, 7, 11, 15]] : List (List Reg)),
      ∃ j, l = (cidx .plain j).positions := by decide

/-- R122's table for the build DIAGONAL. -/
theorem mem_cidx_diagonal :
    ∀ l ∈ ([[0, 4, 8, 12], [5, 9, 13, 1], [10, 14, 2, 6], [15, 3, 7, 11]] : List (List Reg)),
      ∃ j, l = (cidx .diagonal j).positions := by decide

/-- R124's table. -/
theorem mem_ridx : ∀ l ∈ ([[0, 1, 2, 3], [5, 6, 7, 4], [10, 11, 8, 9], [15, 12, 13, 14]] : List (List Reg)),
    ∃ j, l = (ridx j).positions := by decide

/-- Settles O33: R122's table lists the lanes of the column round, in either build. -/
theorem croundAppliesTheQuarterRoundToEachColumn : Obligations.CroundAppliesTheQuarterRoundToEachColumn := by
  refine ⟨headerWords_cround, rfl, fun s => ⟨_, exec_cround s, rfl, ?_⟩⟩
  rintro _ hl a b c d rfl
  refine (lanesPartition_cidx s.cfg.columnOrder).round_at s.x ?_
  cases horder : s.cfg.columnOrder with
  | plain =>
    rw [horder] at hl
    exact mem_cidx_plain _ hl
  | diagonal =>
    rw [horder] at hl
    exact mem_cidx_diagonal _ hl

/-- Settles O34: R124's table lists the lanes of the row round. -/
theorem rroundAppliesTheQuarterRoundToEachRow : Obligations.RroundAppliesTheQuarterRoundToEachRow := by
  refine ⟨headerWords_rround, rfl, fun s => ⟨_, exec_rround s, rfl, ?_⟩⟩
  rintro _ hl a b c d rfl
  exact lanesPartition_ridx.round_at s.x (mem_ridx _ hl)

/-- Settles O35: CROUND and RROUND leave the two rounds that a double-round is made of (R127). -/
theorem droundIsCroundThenRround : Obligations.DroundIsCroundThenRround := by
  refine ⟨headerWords_dround, rfl, fun s => ?_⟩
  have hrounds := (execAll_of_next [.rround] (exec_cround s)).trans (execAll_of_next [] (exec_rround _))
  refine ⟨_, _, exec_dround s, hrounds, ?_⟩
  rw [doubleRound]

/-- n DROUNDs leave the double-round iterated n times. -/
theorem execAll_drounds (n : Nat) (s : State) :
    ∃ u, execAll (List.replicate n .dround) s = .next u ∧
      u.x = (doubleRound s.cfg.columnOrder)^[n] s.x := by
  induction n generalizing s with
  | zero => exact ⟨s, rfl, rfl⟩
  | succ n ih =>
    rw [List.replicate_succ, execAll_of_next _ (exec_dround s)]
    exact ih _

/-- Settles O36: ten DROUNDs leave the double-round iterated ten times, which is Core. -/
theorem coreIsTenDrounds : Obligations.CoreIsTenDrounds := by
  refine ⟨headerWords_core, rfl, fun s => ?_⟩
  obtain ⟨u, hu, hx⟩ := execAll_drounds 10 s
  refine ⟨_, u, exec_core s, hu, ?_⟩
  rw [coreRounds_eq_iterate, ← hx]

/-- Settles O37: HASH's words are the feed-forward's (R129). -/
theorem hashIsCorePlusTheInitialMatrix : Obligations.HashIsCorePlusTheInitialMatrix := by
  refine ⟨headerWords_hash, rfl, fun s => ⟨_, _, exec_hash s, exec_core s, fun r => ?_, rfl⟩⟩
  exact (congrArg BitVec.toNat (feedForward_reg _ s.x r)).trans (BitVec.toNat_add ..)

end Sys2Proof.Machine

/-! ## Loading and reading the matrix (41_rounds.md R130, R131, R137) -/

namespace Sys2Proof.Machine

/-- A word of a byte sequence as a number: byte 4i + k stands at weight 2^(8k) (R52, R54). -/
theorem wordAt_toNat (b : Bytes) (i : Nat) :
    (wordAt b i).toNat =
      (b.getD (4 * i) 0).toNat + (b.getD (4 * i + 1) 0).toNat * 2 ^ 8 +
      (b.getD (4 * i + 2) 0).toNat * 2 ^ 16 + (b.getD (4 * i + 3) 0).toNat * 2 ^ 24 :=
  le32_toNat ..

/-- Byte 4i + k of a byte sequence is bits 8k + 7 to 8k of its word i (R53, R54). -/
theorem byte_of_wordAt (b : Bytes) (i : Nat) {k : Nat} (hk : k < 4) :
    (b.getD (4 * i + k) 0).toNat = (wordAt b i).toNat / 2 ^ (8 * k) % 2 ^ 8 := by
  have h0 := (b.getD (4 * i) 0).isLt
  have h1 := (b.getD (4 * i + 1) 0).isLt
  have h2 := (b.getD (4 * i + 2) 0).isLt
  have h3 := (b.getD (4 * i + 3) 0).isLt
  rw [wordAt_toNat]
  interval_cases k
  · rw [Nat.add_zero]
    omega
  all_goals omega

/-- RDST sends the matrix as one frame of 64 bytes (R131). -/
theorem exec_rdst_sends (s : State) :
    exec .rdst s = .next { s with
      lastErr := 0
      sending := s.sending ++ ([0, 0, 0, 0] ++ ([64, 0, 0, 0, 0, 0, 0, 0] ++ bytesOfMatrix s.x)) } := by
  rw [exec_rdst, bytesOfMatrix_length]
  rfl

/-- Settles O40: by the two ways LDST ends; the frame is read whole before its length is tested
(`step_encode`). -/
theorem ldstLoadsSixtyFourBytesOrRefuses : Obligations.LdstLoadsSixtyFourBytesOrRefuses := by
  refine ⟨headerWords_ldst, rfl, fun b s => ⟨fun hb => ?loads, fun hb => ?refuses, ?consumes⟩⟩
  case loads =>
    refine ⟨_, (exec_ldst b s).trans (if_pos hb), fun i => ?_, rfl⟩
    exact (congrArg BitVec.toNat (matrixOfBytes_reg b i)).trans (wordAt_toNat b i)
  case refuses => exact (exec_ldst b s).trans (if_neg hb)
  case consumes =>
    intro rest hb hp hs hc
    have hwf : (Instr.ldst b).wf = true := Instr.wf_iff.2 (List.forall_mem_singleton.2 (by omega))
    obtain ⟨t, ht, -⟩ := exec_effect (.ldst b) (s.consume rest)
    obtain ⟨-, -, hcmd, -⟩ := exec_channels ht
    exact ⟨t, (step_encode hp hs hwf hc).trans ht, ht, hcmd⟩

/-- Settles O41: the 64 bytes have the matrix's words as their words. -/
theorem rdstEmitsTheMatrix : Obligations.RdstEmitsTheMatrix := by
  refine ⟨headerWords_rdst, rfl, fun s =>
    ⟨bytesOfMatrix s.x, bytesOfMatrix_length s.x, exec_rdst_sends s, fun i k hk => ?_⟩⟩
  have hword : wordAt (bytesOfMatrix s.x) i = s.reg i := by
    rw [← matrixOfBytes_reg, matrixOfBytes_bytesOfMatrix]
    rfl
  rw [byte_of_wordAt _ _ hk, hword]

/-- Settles O38: block expansion is the bytes of HASH of the initial block's matrix (R163). -/
theorem hashOfTheInitialBlockIsBlockExpansion : Obligations.HashOfTheInitialBlockIsBlockExpansion := by
  intro s key nonce c
  have hload := (exec_ldst _ s).trans (if_pos (initBlock_length key nonce c))
  refine ⟨_, (execAll_of_next _ hload).trans ((execAll_of_next _ (exec_hash _)).trans
    (execAll_of_next [] (exec_rdst_sends _))), ?_⟩
  simp only [List.append_assoc]
  rfl

end Sys2Proof.Machine

/-! ## The initial block and the keystream (42_keystream.md R160 to R164) -/

namespace Sys2Proof.Machine

/-- The table of R162: the constants on the diagonal, the key's halves, the nonce and the counter's two words.
`initBlock_eq_bytesOfMatrix` ties it to `initBlock`. -/
def initMatrix (key : Vector Byte 32) (nonce : Vector Byte 8) (c : BitVec 64) : StateMatrix :=
  #v[0x61707865, wordAt key.toList 0, wordAt key.toList 1, wordAt key.toList 2,
     wordAt key.toList 3, 0x3320646e, wordAt nonce.toList 0, wordAt nonce.toList 1,
     BitVec.ofNat 32 c.toNat, BitVec.ofNat 32 (c.toNat / 2 ^ 32), 0x79622d32, wordAt key.toList 4,
     wordAt key.toList 5, wordAt key.toList 6, wordAt key.toList 7, 0x6b206574]

/-- A counter's bytes are its low word's, then its high word's (R55). -/
theorem bytes64_eq_words (c : BitVec 64) :
    bytes64 c = bytes32 (BitVec.ofNat 32 c.toNat) ++ bytes32 (BitVec.ofNat 32 (c.toNat / 2 ^ 32)) := by
  have hhigh : c.extractLsb' 32 32 = BitVec.ofNat 32 (c.toNat / 2 ^ 32) := by
    rw [BitVec.extractLsb', Nat.shiftRight_eq_div_pow]
  rw [bytes64, hhigh]
  rfl

/-- The initial block is the bytes of the table's words: each of its pieces is whole words (R161, R162). -/
theorem initBlock_eq_bytesOfMatrix (key : Vector Byte 32) (nonce : Vector Byte 8) (c : BitVec 64) :
    initBlock key nonce c = bytesOfMatrix (initMatrix key nonce c) := by
  have hkey : [wordAt key.toList 0, wordAt key.toList 1, wordAt key.toList 2, wordAt key.toList 3,
      wordAt key.toList 4, wordAt key.toList 5, wordAt key.toList 6, wordAt key.toList 7].flatMap bytes32 =
      key.toList := flatMap_bytes32_wordAt 8 key.toList key.size_toArray
  have hfirst : key.toList.take 16 = [wordAt key.toList 0, wordAt key.toList 1, wordAt key.toList 2,
      wordAt key.toList 3].flatMap bytes32 := (congrArg (List.take 16) hkey).symm
  have hsecond : key.toList.drop 16 = [wordAt key.toList 4, wordAt key.toList 5, wordAt key.toList 6,
      wordAt key.toList 7].flatMap bytes32 := (congrArg (List.drop 16) hkey).symm
  have hnonce : nonce.toList = [wordAt nonce.toList 0, wordAt nonce.toList 1].flatMap bytes32 :=
    (flatMap_bytes32_wordAt 2 nonce.toList nonce.size_toArray).symm
  rw [initBlock, hfirst, hsecond, hnonce, bytes64_eq_words, bytesOfMatrix, initMatrix]
  simp only [Vector.toList_mk, List.flatMap_cons, List.flatMap_nil, List.append_nil, List.append_assoc]
  rfl

/-- Settles O43: the initial block is the bytes of R162's matrix, and these are read back as that matrix. -/
theorem initialMatrixHasTheStatedWords : Obligations.InitialMatrixHasTheStatedWords := by
  intro key nonce c
  refine ⟨initBlock_length key nonce c, ?_⟩
  rw [initBlock_eq_bytesOfMatrix, matrixOfBytes_bytesOfMatrix]
  rfl

section

variable (order : ColumnOrder) (key : Vector Byte 32) (nonce : Vector Byte 8) (c : BitVec 64)

/-- Block i of a keystream is the block at counter c + i (R164). -/
theorem keystream_block {i n : Nat} (hi : i < n) :
    ((keystream order key nonce c n).drop (64 * i)).take 64 =
      keyBlock order key nonce (BitVec.ofNat 64 (c.toNat + i)) := by
  obtain ⟨r, rfl⟩ : ∃ r, n = i + (r + 1) := ⟨n - i - 1, by omega⟩
  rw [keystream_add, List.drop_left' (keystream_length ..), keystream, List.take_left' (keyBlock_length ..),
    BitVec.ofNat_add, BitVec.ofNat_toNat, BitVec.setWidth_eq]

/-- Byte k of a keystream is byte k mod 64 of block k / 64 (R164). -/
theorem keystream_getD {k n : Nat} (hk : k < 64 * n) :
    (keystream order key nonce c n).getD k 0 =
      (keyBlock order key nonce (BitVec.ofNat 64 (c.toNat + k / 64))).getD (k % 64) 0 := by
  have hmod : k % 64 < 64 := Nat.mod_lt k (by decide)
  rw [← keystream_block order key nonce c (show k / 64 < n by omega), List.getD_eq_getElem?_getD,
    List.getD_eq_getElem?_getD, List.getElem?_take_of_lt hmod, List.getElem?_drop, Nat.div_add_mod]

end

/-- Settles O44: the blocks by `keystream_block`; the counters stay below 2^64, so none is reduced. -/
theorem keystreamIsTheBlocksAtDistinctCounters : Obligations.KeystreamIsTheBlocksAtDistinctCounters := by
  intro order key nonce c n hn
  have counter : ∀ i, i < n → (BitVec.ofNat 64 (c.toNat + i)).toNat = c.toNat + i := fun i hi =>
    (BitVec.toNat_ofNat ..).trans (Nat.mod_eq_of_lt (by omega))
  refine ⟨keystream_length order key nonce c n, fun i hi =>
    ⟨keystream_block order key nonce c hi, counter i hi, fun j hj heq => ?_⟩⟩
  have hnat := congrArg BitVec.toNat heq
  rw [counter i hi, counter j hj] at hnat
  exact Nat.add_left_cancel hnat

end Sys2Proof.Machine

/-! ## ENCRYPT (42_keystream.md R165 to R169, R173) -/

namespace Sys2Proof.Machine

@[simp] theorem nblocks_cipherBytes (m : Bytes) (s : State) : nblocks (cipherBytes m s) = nblocks m := by
  rw [nblocks, nblocks, cipherBytes_length]

/-- ENCRYPT with an instance and enough blocks left (R168). -/
theorem exec_encrypt_of_le {m : Bytes} {s : State} (hv : s.valid = true) (hn : nblocks m ≤ s.blocksLeft) :
    exec (.encrypt m) s = .next { s with
      x := Vector.replicate 16 0
      ctr := (s.advanceCtr (nblocks m)).ctr
      exh := (s.advanceCtr (nblocks m)).exh
      lastErr := 0
      sending := s.sending ++
        ([0, 0, 0, 0] ++ (bytes64 (BitVec.ofNat 64 m.length) ++ cipherBytes m s)) } :=
  (exec_encrypt m s).trans ((if_neg (by simp [hv])).trans (if_neg (Nat.not_lt.2 hn)))

/-- Byte k of the ciphertext (R166, R168). -/
theorem cipherBytes_getD (m : Bytes) (s : State) {k : Nat} (hk : k < m.length) :
    (cipherBytes m s).getD k 0 = m.getD k 0 ^^^
      (keyBlock s.cfg.columnOrder s.key s.nonce (BitVec.ofNat 64 (s.ctr.toNat + k / 64))).getD (k % 64) 0 := by
  have hstream : k < 64 * nblocks m := Nat.lt_of_lt_of_le hk (length_le_nblocks m)
  rw [← keystream_getD _ _ _ _ hstream, List.getD_eq_getElem _ _ (by simpa using hk),
    List.getD_eq_getElem _ _ hk, List.getD_eq_getElem _ _ (by simpa using hstream)]
  exact List.getElem_zipWith

/-- Settles O46: the two refusals are ENCRYPT's tests; what it sends and leaves is said byte by byte by
`cipherBytes_getD` and of the counter by `advanceCtr_of_le`. -/
theorem encryptXorsTheKeystreamOrRefuses : Obligations.EncryptXorsTheKeystreamOrRefuses := by
  refine ⟨headerWords_encrypt, rfl, fun m s => ⟨fun hv => ?noInstance, fun hv hn => ?exhausted,
    fun hv hn => ?encrypts⟩⟩
  case noInstance => exact (exec_encrypt m s).trans (if_pos hv)
  case exhausted => exact (exec_encrypt m s).trans ((if_neg (by simp [hv])).trans (if_pos hn))
  case encrypts =>
    refine ⟨_, cipherBytes m s, exec_encrypt_of_le hv hn, cipherBytes_length m s,
      fun _ => cipherBytes_getD m s, fun r => ?_, advanceCtr_of_le hn, rfl⟩
    show (Vector.replicate 16 (0 : Word))[r] = 0
    simp

/-- XOR with the same keystream bytes twice gives the message back (R166). -/
theorem zipWith_xor_zipWith_xor {m ks : Bytes} (h : m.length ≤ ks.length) :
    List.zipWith (fun a b => a ^^^ b) (List.zipWith (fun a b => a ^^^ b) m ks) ks = m := by
  apply List.ext_getElem
  · simp [h]
  · intro k _ _
    rw [List.getElem_zipWith, List.getElem_zipWith, BitVec.xor_assoc, BitVec.xor_self, BitVec.xor_zero]

section

variable {s u : State} (hcfg : u.cfg = s.cfg) (hkey : u.key = s.key) (hnonce : u.nonce = s.nonce)
  (hctr : u.ctr = s.ctr)

include hcfg hkey hnonce hctr

/-- The ciphertext is a function of the message, the instance and the build (R173). -/
theorem cipherBytes_congr (m : Bytes) : cipherBytes m u = cipherBytes m s := by
  rw [cipherBytes, cipherBytes, State.keystream, State.keystream, hcfg, hkey, hnonce, hctr]

/-- Encrypting the ciphertext at the same counter gives the message (R169). -/
theorem cipherBytes_cipherBytes (m : Bytes) : cipherBytes (cipherBytes m s) u = m := by
  rw [cipherBytes_congr hcfg hkey hnonce hctr, cipherBytes, nblocks_cipherBytes, cipherBytes]
  apply zipWith_xor_zipWith_xor
  rw [State.keystream, keystream_length]
  exact length_le_nblocks m

end

/-- SETCTR of a counter's eight bytes with an instance (R170). -/
theorem exec_setctr_bytes64 (c : BitVec 64) {s : State} (hv : s.valid = true) :
    exec (.setctr (bytes64 c)) s = .next { s with
      ctr := c, exh := false, lastErr := 0, sending := s.sending ++ [0, 0, 0, 0] } := by
  rw [exec_setctr, if_neg (by simp), if_neg (by simp [hv]), ctrOfBytes_bytes64]

/-- With EXH = 0 every block up to the counter 2^64 − 1 is left (R168). -/
theorem State.blocksLeft_of_exh {s : State} (hexh : s.exh = false) : s.blocksLeft = 2 ^ 64 - s.ctr.toNat :=
  if_neg (by simp [hexh])

/-- Settles O50: SETCTR takes the later engine to the counter of the first ENCRYPT, where the same keystream is
XORed again (`cipherBytes_cipherBytes`). -/
theorem decryptionRecoversTheMessage : Obligations.DecryptionRecoversTheMessage := by
  intro m s u hv hexh hn hvu hcfg hkey hnonce
  have henc := exec_encrypt_of_le hv (m := m) (by rwa [State.blocksLeft_of_exh hexh])
  have hset := exec_setctr_bytes64 s.ctr hvu
  have hdec := exec_encrypt_of_le (m := cipherBytes m s) (s := { u with
      ctr := s.ctr, exh := false, lastErr := 0, sending := u.sending ++ [0, 0, 0, 0] }) hvu
    (by rwa [nblocks_cipherBytes, State.blocksLeft_of_exh rfl])
  refine ⟨_, cipherBytes m s, _, henc, cipherBytes_length m s, rfl,
    (execAll_of_next _ hset).trans (execAll_of_next [] hdec), ?_⟩
  rw [cipherBytes_cipherBytes, cipherBytes_length]
  · exact List.append_assoc ..
  exacts [hcfg, hkey, hnonce, rfl]

section

variable {s u : State} (hctr : u.ctr = s.ctr) (hexh : u.exh = s.exh)

include hctr hexh

/-- The blocks left are a function of CTR and EXH (R168, R173). -/
theorem State.blocksLeft_congr : u.blocksLeft = s.blocksLeft := by
  rw [State.blocksLeft, State.blocksLeft, hctr, hexh]

/-- So is what the counter update leaves in them (R168, R173). -/
theorem State.advanceCtr_congr (n : Nat) :
    (u.advanceCtr n).ctr = (s.advanceCtr n).ctr ∧ (u.advanceCtr n).exh = (s.advanceCtr n).exh := by
  by_cases hw : s.ctr.toNat + n = 2 ^ 64
  · rw [State.advanceCtr_wrap s n hw, State.advanceCtr_wrap u n (hctr ▸ hw)]
    exact ⟨rfl, rfl⟩
  · rw [State.advanceCtr_next s n hw, State.advanceCtr_next u n (hctr ▸ hw), hctr]
    exact ⟨rfl, hexh⟩

end

/-- Settles O51: ENCRYPT's tests, its ciphertext and its counter update are functions of the instance and the
build, so both engines end the same way. -/
theorem encryptDependsOnTheInstanceAlone : Obligations.EncryptDependsOnTheInstanceAlone := by
  intro m s s' t t' hcfg hkey hnonce hctr hexh hvalid h h'
  obtain ⟨hadvCtr, hadvExh⟩ := State.advanceCtr_congr hctr hexh (nblocks m)
  rw [exec_encrypt] at h
  rw [exec_encrypt, hvalid, State.blocksLeft_congr hctr hexh, cipherBytes_congr hcfg hkey hnonce hctr, hadvCtr,
    hadvExh] at h'
  split_ifs at h h' with hv hn <;> cases h <;> cases h'
  · exact ⟨_, rfl, rfl, hctr, hexh, rfl⟩
  · exact ⟨_, rfl, rfl, hctr, hexh, rfl⟩
  · exact ⟨_, rfl, rfl, rfl, rfl, rfl⟩

end Sys2Proof.Machine

/-! ## The instance, the counter and the status word (42_keystream.md R167, R170 to R172) -/

namespace Sys2Proof.Machine

/-- A byte register of n bytes, loaded from n bytes, holds these (R24, R25). -/
theorem toList_byteVector {n : Nat} {b : Bytes} (hb : b.length = n) : (byteVector n b).toList = b := by
  subst hb
  rw [byteVector, Vector.toList_ofFn]
  apply List.ext_getElem (List.length_ofFn ..)
  intro i _ hi
  rw [List.getElem_ofFn]
  exact List.getD_eq_getElem b 0 hi

/-- Settles O45: the two ways CONSTRUCT fails clear the instance and differ in the code alone. -/
theorem constructMakesOrDestroysTheInstance : Obligations.ConstructMakesOrDestroysTheInstance := by
  refine ⟨headerWords_construct, rfl, fun k nn s => ⟨fun hk hn => ?makes, fun hbad => ?destroys⟩⟩
  case makes =>
    exact ⟨_, (exec_construct k nn s).trans ((if_neg (by simp [hk])).trans (if_neg (by simp [hn]))),
      toList_byteVector hk, toList_byteVector hn, rfl⟩
  case destroys =>
    rw [exec_construct]
    by_cases hk : k.length ≠ 32
    · rw [if_pos hk, if_pos hk]
      exact ⟨_, failedConstruct_next .invalidKeyLength s, rfl, rfl, rfl, rfl⟩
    · rw [if_neg hk, if_neg hk, if_pos (hbad.resolve_left hk)]
      exact ⟨_, failedConstruct_next .invalidNonceLength s, rfl, rfl, rfl, rfl⟩

/-- Eight bytes as a counter: each byte at its weight (R55, R56). -/
theorem ctrOfBytes_toNat (v : Bytes) :
    (ctrOfBytes v).toNat =
      (v.getD 0 0).toNat + (v.getD 1 0).toNat * 2 ^ 8 + (v.getD 2 0).toNat * 2 ^ 16 +
      (v.getD 3 0).toNat * 2 ^ 24 + (v.getD 4 0).toNat * 2 ^ 32 + (v.getD 5 0).toNat * 2 ^ 40 +
      (v.getD 6 0).toNat * 2 ^ 48 + (v.getD 7 0).toNat * 2 ^ 56 := by
  simp only [ctrOfBytes, byteAt, le64_toNat, le32_toNat]
  ring

/-- Settles O47: by the three ways SETCTR ends. -/
theorem setctrSetsTheCounterOrRefuses : Obligations.SetctrSetsTheCounterOrRefuses := by
  refine ⟨headerWords_setctr, rfl, fun v s => ⟨fun hl => ?length, fun hl hv => ?noInstance,
    fun hl hv => ?sets⟩⟩
  case length => exact (exec_setctr v s).trans (if_pos hl)
  case noInstance => exact (exec_setctr v s).trans ((if_neg (not_not.2 hl)).trans (if_pos hv))
  case sets =>
    exact ⟨_, (exec_setctr v s).trans ((if_neg (not_not.2 hl)).trans (if_neg (by simp [hv]))),
      ctrOfBytes_toNat v, rfl⟩

/-- Byte k of a counter's bytes is its bits 8k + 7 to 8k: the first four are those of the low word (R55). -/
theorem bytes64_getD_toNat (c : BitVec 64) {k : Nat} (hk : k < 8) :
    ((bytes64 c).getD k 0).toNat = c.toNat / 2 ^ (8 * k) % 2 ^ 8 := by
  have hc := c.isLt
  have hlow : (wordAt (bytes64 c) 0).toNat = c.toNat % 2 ^ 32 :=
    (congrArg BitVec.toNat (le32_bytes32 _)).trans (BitVec.extractLsb'_toNat ..)
  have hhigh : (wordAt (bytes64 c) 1).toNat = c.toNat / 2 ^ 32 := by
    refine (congrArg BitVec.toNat (le32_bytes32 (c.extractLsb' 32 32))).trans ?_
    rw [BitVec.extractLsb'_toNat, Nat.shiftRight_eq_div_pow]
    omega
  rcases Nat.lt_or_ge k 4 with h | h
  · rw [← Nat.zero_add k, byte_of_wordAt (bytes64 c) 0 h, hlow, Nat.zero_add]
    interval_cases k <;> omega
  · obtain ⟨j, rfl⟩ := Nat.exists_eq_add_of_le h
    rw [byte_of_wordAt (bytes64 c) 1 (show j < 4 by omega), hhigh, Nat.div_div_eq_div_mul, ← Nat.pow_add,
      Nat.mul_add]

/-- GETCTR with an instance sends CTR as one frame of eight bytes (R171). -/
theorem exec_getctr_sends {s : State} (hv : s.valid = true) :
    exec .getctr s = .next { s with
      lastErr := 0
      sending := s.sending ++ ([0, 0, 0, 0] ++ ([8, 0, 0, 0, 0, 0, 0, 0] ++ bytes64 s.ctr)) } := by
  rw [exec_getctr, if_neg (by simp [hv]), bytes64_length]
  rfl

/-- Settles O48: the eight bytes are those of CTR. -/
theorem getctrEmitsTheCounterOrRefuses : Obligations.GetctrEmitsTheCounterOrRefuses :=
  ⟨headerWords_getctr, rfl, fun s => ⟨fun hv => (exec_getctr s).trans (if_pos hv), fun hv =>
    ⟨bytes64 s.ctr, bytes64_length _, fun _ => bytes64_getD_toNat s.ctr, exec_getctr_sends hv⟩⟩⟩

/-- The STATUS word byte by byte: the two flags, LAST_ERR, and two bytes of 0 (R30, R172). -/
theorem statusWord_eq_le32 (s : State) :
    s.statusWord = le32 ((if s.valid then 1 else 0) + (if s.exh then 2 else 0)) s.lastErr 0 0 := by
  rw [State.statusWord, le32]
  cases s.valid <;> cases s.exh <;> simp [bitWord]

/-- Settles O49: GETSTAT sends the four bytes of the STATUS word. -/
theorem getstatEmitsTheStatusWord : Obligations.GetstatEmitsTheStatusWord := by
  refine ⟨headerWords_getstat, rfl, fun s => ?_⟩
  rw [exec_getstat, bytes32_length, statusWord_eq_le32, bytes32_le32]
  rfl

end Sys2Proof.Machine

/-! ## Errors, and what depends on KEY and NONCE (60_exceptions.md R203, R207, R210) -/

namespace Sys2Proof.Machine

/-- Settles O17, by the way the command ends: every way but an error answers 0x00, and an error answers its
code, CONSTRUCT's after the instance is cleared. -/
theorem anErrorChangesOnlyLastErr : Obligations.AnErrorChangesOnlyLastErr := by
  intro i s t h
  cases effect_of_exec h with
  | raised _ e he hi =>
    refine .inr ⟨e.code, code_ne_zero_of_possible he, .inl ⟨hi, ?_⟩⟩
    rw [← Resp.serialize_nil]
    rfl
  | destroyed k n e he =>
    refine .inr ⟨e.code, code_ne_zero_of_possible he, .inr ⟨k, n, rfl, ?_⟩⟩
    rw [← Resp.serialize_nil]
    rfl
  | made k n key nonce => exact .inl ⟨[], rfl⟩
  | encrypted m out _ _ => exact .inl ⟨[out], by simp [State.afterEncrypt, ErrCode.code]⟩
  | counterSet v c _ => exact .inl ⟨[], rfl⟩
  | status out => exact .inl ⟨[out], rfl⟩
  | computed _ m frames _ _ => exact .inl ⟨frames, rfl⟩

/-- A command other than ENCRYPT reads neither KEY nor NONCE: with others held, it passes the same tests, sends
the same response and leaves the same in every other register (R24, R25, R210). -/
theorem exec_other_key {i : Instr} {s t : State} (hi : ∀ m, i ≠ .encrypt m) (h : exec i s = .next t)
    (key : Vector Byte 32) (nonce : Vector Byte 8) :
    ∃ key' nonce', exec i { s with key := key, nonce := nonce } =
      .next { t with key := key', nonce := nonce' } := by
  cases i with
  | encrypt m => exact absurd rfl (hi m)
  | construct k n =>
    simp only [exec_construct, failedConstruct_next] at h ⊢
    split_ifs at h ⊢ <;> cases h <;> exact ⟨_, _, rfl⟩
  | setctr _ | getctr | ldst _ | qr _ _ _ _ =>
    simp only [exec_setctr, exec_getctr, exec_ldst, exec_qr] at h ⊢
    split_ifs at h ⊢ <;> cases h <;> exact ⟨key, nonce, rfl⟩
  | _ =>
    cases h
    exact ⟨key, nonce, rfl⟩

/-- Settles O53, by induction on the commands: after each one the two engines again differ in KEY and NONCE
alone. -/
theorem noCommandButEncryptRevealsTheKey : Obligations.NoCommandButEncryptRevealsTheKey := by
  intro is s t key nonce hno h
  induction is generalizing s key nonce with
  | nil =>
    cases h
    exact ⟨_, rfl, rfl⟩
  | cons i is ih =>
    obtain ⟨u, hu, -⟩ := exec_effect i s
    have hi : ∀ m, i ≠ .encrypt m := fun m hm => hno m (hm ▸ List.mem_cons_self)
    obtain ⟨key', nonce', hu'⟩ := exec_other_key hi hu key nonce
    rw [execAll_of_next is hu] at h
    rw [execAll_of_next is hu']
    exact ih u key' nonce' (fun m hm => hno m (List.mem_cons_of_mem i hm)) h

end Sys2Proof.Machine

/-! ## The reset input (70_reset_and_hazards.md R230) -/

namespace Sys2Proof.Machine

/-- Settles O2: a step under reset is `inReset`, and the pin it keeps is asserted. -/
theorem assertedResetInputResetsTheEngine : Obligations.AssertedResetInputResetsTheEngine := by
  intro s hp
  refine ⟨inReset s, step_of_reset hp, rfl, rfl, ?_⟩
  rw [inReset, hp]

/-- With no reset, k steps send the first k bytes of the response and do nothing else (R70; log 4). -/
theorem run_sendFirst {s : State} {k : Nat} (hp : s.resetPin = false) (hk : k ≤ s.sending.length) :
    Sys2Proof.core.run k s =
      .next { s with sending := s.sending.drop k, respOut := s.respOut ++ s.sending.take k } := by
  induction k generalizing s with
  | zero =>
    rw [List.take_zero, List.append_nil]
    rfl
  | succ k ih =>
    obtain ⟨b, bs, hs⟩ := List.exists_cons_of_length_pos (Nat.lt_of_lt_of_le k.succ_pos hk)
    have hbs : k ≤ bs.length := by
      rw [hs] at hk
      exact Nat.le_of_succ_le_succ hk
    rw [core_run_of_next k (step_of_sending hp hs), ih (s := s.sendByte b bs) hp hbs, hs]
    simp [State.sendByte]

/-- Settles O55: one step executes the command, k more send k bytes (`run_sendFirst`), and the step under reset
keeps these and drops the rest. -/
theorem resetCutsTheResponseShort : Obligations.ResetCutsTheResponseShort := by
  intro s t i rest k hp hs hd ht hk
  obtain ⟨-, -, -, hresp, hpin, hcfg, -⟩ := exec_channels ht
  have hstep : step s = .next t := (stepExecutesTheDecodedCommand s i rest hp hs hd).trans ht
  have hrun := run_sendFirst (hpin.trans hp) hk
  rw [← core_run_of_next k hstep, Nat.add_comm] at hrun
  refine ⟨_, hrun, (step_of_reset rfl).trans ?_⟩
  simp [inReset, hresp, hcfg]

end Sys2Proof.Machine

/-! ## Commands and illegal header words on the channel (30_encoding.md R70, R77, R81) -/

namespace Sys2Proof

open Sys2Proof.Machine

/-- An illegal header word is a command of R81 exactly when the decoder rejects it (R76, R77). -/
theorem Cmd.wf_illegal_iff {w : Word} : (Cmd.illegal w).wf = true ↔ ∃ e, decodeHeader w = .error e := by
  rw [Cmd.wf]
  split <;> simp [*]

/-- What the host sends for a command or an illegal header word is read as that (R70, R77). -/
theorem decode_encodeCmd {c : Cmd} (rest : Bytes) (hc : c.wf = true) :
    decode (encodeCmd c ++ rest) = .command c rest := by
  cases c with
  | legal i => exact decode_encode rest hc
  | illegal w =>
    obtain ⟨e, he⟩ := Cmd.wf_illegal_iff.1 hc
    exact decode_illegal he rest

theorem withFrame_ne_illegal (mk : Bytes → Instr) (bs : Bytes) (w : Word) (rest : Bytes) :
    withFrame mk bs ≠ .command (.illegal w) rest := by
  unfold withFrame
  split <;> simp

/-- Only a rejected header word is an illegal command: after a legal header the frames make a legal one (R77). -/
theorem decodeFrames_ne_illegal (h : Header) (bs : Bytes) (w : Word) (rest : Bytes) :
    decodeFrames h bs ≠ .command (.illegal w) rest := by
  cases h with
  | construct =>
    rw [decodeFrames]
    split
    · exact withFrame_ne_illegal _ _ w rest
    · simp
  | encrypt | setctr | ldst => exact withFrame_ne_illegal _ bs w rest
  | _ => simp [decodeFrames]

/-- The bytes a command was read from are the bytes the host sends for it, an illegal header word included
(R70, R73, R77). -/
theorem eq_of_decode_cmd {bs rest : Bytes} {c : Cmd} (h : decode bs = .command c rest) :
    c.wf = true ∧ bs = encodeCmd c ++ rest := by
  cases c with
  | legal i => exact eq_of_decode h
  | illegal w =>
    unfold decode at h
    split at h
    · cases h
    · next htake =>
      split at h
      · exact absurd h (decodeFrames_ne_illegal _ _ w rest)
      · next e he =>
        cases h
        exact ⟨Cmd.wf_illegal_iff.2 ⟨e, he⟩, eq_of_takeWord htake⟩

/-- A command that stands whole on the channel is read alike when more bytes follow it (R70). -/
theorem decode_append {bs rest : Bytes} {c : Cmd} (h : decode bs = .command c rest) (more : Bytes) :
    decode (bs ++ more) = .command c (rest ++ more) := by
  obtain ⟨hc, rfl⟩ := eq_of_decode_cmd h
  rw [List.append_assoc, decode_encodeCmd _ hc]

/-- A command's bytes without its last ones are no command: had one been read from them, the missing bytes would
be left over after the whole command (`decode_append`). -/
theorem decode_of_missing {bs missing : Bytes} {i : Instr} (hi : i.wf = true) (hm : missing ≠ [])
    (h : bs ++ missing = encode i) : decode bs = .incomplete := by
  cases hd : decode bs with
  | incomplete => rfl
  | command c rest =>
    have hwhole : decode (bs ++ missing) = .command (.legal i) [] := by
      rw [h, ← decode_encode [] hi, List.append_nil]
    have hleft := (decode_append hd missing).symm.trans hwhole
    simp [hm] at hleft

end Sys2Proof

namespace Sys2Proof.Machine

/-- An idle engine executes what stands at the front of its channel: a command, or the error of an illegal header
word (R63, R70, R77). -/
theorem step_encodeCmd {s : State} {c : Cmd} {rest : Bytes} (hp : s.resetPin = false)
    (hs : s.sending = []) (hc : c.wf = true) (hin : s.cmdIn = encodeCmd c ++ rest) :
    step s = execCmd c (s.consume rest) := by
  rw [step_of_idle hp hs, stepCommand, hin, decode_encodeCmd rest hc]

/-- Settles O9: the step is the command's execution, which always answers a state (`exec_effect`) and takes no
further byte from the channel (`exec_channels`). -/
theorem sentCommandCompletesInOneStep : Obligations.SentCommandCompletesInOneStep := by
  intro s i rest hp hs hi hin
  obtain ⟨t, ht, -⟩ := exec_effect i (s.consume rest)
  obtain ⟨-, -, hcmd, -⟩ := exec_channels ht
  exact ⟨t, (step_encode hp hs hi hin).trans ht, ht, hcmd⟩

/-- Settles O10: the channel holds no whole command (`decode_of_missing`), so the engine waits. -/
theorem engineWaitsForMissingBytes : Obligations.EngineWaitsForMissingBytes := by
  intro s i missing hp hs hi hm hin
  rw [step_of_idle hp hs, stepCommand, decode_of_missing hi hm hin]
  rfl

end Sys2Proof.Machine

/-! ## A run of commands and illegal header words (30_encoding.md R81, 70_reset_and_hazards.md R238) -/

namespace Sys2Proof.Machine

/-- A response begins with the four bytes of its response word (R72). -/
theorem Resp.four_le_length_serialize (r : Resp) : 4 ≤ r.serialize.length := by
  rw [Resp.serialize, List.length_append, bytes32_length]
  exact Nat.le_add_right 4 _

/-- Every command answers a state with one response added to the bytes to be sent, an illegal header word
included (R77, R81). -/
theorem execCmd_responds (c : Cmd) (s : State) :
    ∃ (t : State) (r : Resp), execCmd c s = .next t ∧ t.sending = s.sending ++ r.serialize := by
  cases c with
  | legal i =>
    obtain ⟨t, r, ht, hr, -⟩ := exec_responds i s
    exact ⟨t, r, ht, hr⟩
  | illegal w => exact ⟨_, _, illegalHeader_eq s, rfl⟩

/-- A run goes on from the state in which the first command's response has been sent (R63, R238). -/
theorem runCommands_cons {c : Cmd} {cs : List Cmd} {s t : State} {r : Run} (ht : execCmd c s = .next t)
    (hr : runCommands cs t.sendAll = .next r) :
    runCommands (c :: cs) s = .next { r with responses := t.sending :: r.responses } := by
  simp only [runCommands, ht, hr]

/-- The engine that is sent a command executes it and sends its response whole; the bytes sent after the command
stay on the channel. -/
theorem run_hostSend_encodeCmd {c : Cmd} {s t : State} (more : Bytes) (hp : s.resetPin = false)
    (hs : s.sending = []) (hin : s.cmdIn = []) (hc : c.wf = true) (ht : execCmd c s = .next t) :
    Sys2Proof.core.run (1 + t.sending.length) (s.hostSend (encodeCmd c ++ more)) =
      .next (t.sendAll.hostSend more) := by
  obtain ⟨r, hr, hcmd, hresp, hpin, -, hchannels⟩ := execCmd_channels ht
  have hexec : execCmd c (s.consume more) = .next (t.hostSend more) := by
    rw [State.hostSend, hcmd, hin, List.nil_append]
    have h := hchannels more s.sending s.respOut
    rw [← hr] at h
    exact h.trans (by rw [← hresp])
  have hstep : step (s.hostSend (encodeCmd c ++ more)) = .next (t.hostSend more) :=
    (step_encodeCmd (s := s.hostSend (encodeCmd c ++ more)) hp hs hc
      (by rw [State.hostSend_cmdIn, hin, List.nil_append])).trans hexec
  rw [Nat.add_comm, core_run_of_next _ hstep]
  exact run_sendAll (s := t.hostSend more) (hpin.trans hp)

/-- `EndsAs cs s r`: r is the run of the commands cs from s, with a response a command, all of them sent, and the
engine that is sent the commands on its channel comes step by step to its end. -/
structure EndsAs (cs : List Cmd) (s : State) (r : Run) : Prop where
  computed : runCommands cs s = .next r
  responses_length : r.responses.length = cs.length
  four_le : ∀ b ∈ r.responses, 4 ≤ b.length
  sending : r.final.sending = []
  cmdIn : r.final.cmdIn = []
  respOut : r.final.respOut = s.respOut ++ r.responses.flatten
  reached : Sys2Proof.core.run (cs.length + r.responses.flatten.length)
    (s.hostSend (cs.flatMap encodeCmd)) = .next r.final

theorem EndsAs.nil {s : State} (hs : s.sending = []) (hin : s.cmdIn = []) : EndsAs [] s ⟨[], s⟩ where
  computed := rfl
  responses_length := rfl
  four_le := by simp
  sending := hs
  cmdIn := hin
  respOut := (List.append_nil _).symm
  reached := by
    show Host.Outcome.next (s.hostSend []) = .next s
    rw [State.hostSend, List.append_nil]

theorem EndsAs.cons {c : Cmd} {cs : List Cmd} {s t : State} {r : Run} (hp : s.resetPin = false)
    (hs : s.sending = []) (hin : s.cmdIn = []) (hc : c.wf = true) (ht : execCmd c s = .next t)
    (hlen : 4 ≤ t.sending.length) (h : EndsAs cs t.sendAll r) :
    EndsAs (c :: cs) s { r with responses := t.sending :: r.responses } where
  computed := runCommands_cons ht h.computed
  responses_length := congrArg (· + 1) h.responses_length
  four_le := List.forall_mem_cons.2 ⟨hlen, h.four_le⟩
  sending := h.sending
  cmdIn := h.cmdIn
  respOut := by
    obtain ⟨-, -, -, hresp, -⟩ := execCmd_channels ht
    rw [h.respOut, State.sendAll_respOut, hresp, List.flatten_cons, List.append_assoc]
  reached := by
    have hsteps : (c :: cs).length + (t.sending :: r.responses).flatten.length =
        (1 + t.sending.length) + (cs.length + r.responses.flatten.length) := by
      rw [List.length_cons, List.flatten_cons, List.length_append]
      omega
    rw [hsteps, List.flatMap_cons, run_add _ (run_hostSend_encodeCmd _ hp hs hin hc ht)]
    exact h.reached

/-- An idle engine with an empty channel has a run of every list of commands, by induction on the commands: the
first one and its response leave the engine idle again. -/
theorem exists_endsAs {cs : List Cmd} {s : State} (hp : s.resetPin = false) (hs : s.sending = [])
    (hin : s.cmdIn = []) (hwf : ∀ c ∈ cs, c.wf = true) : ∃ r, EndsAs cs s r := by
  induction cs generalizing s with
  | nil => exact ⟨_, EndsAs.nil hs hin⟩
  | cons c cs ih =>
    obtain ⟨hc, hcs⟩ := List.forall_mem_cons.1 hwf
    obtain ⟨t, resp, ht, hresp⟩ := execCmd_responds c s
    obtain ⟨-, -, hcmd, -, hpin, -, -⟩ := execCmd_channels ht
    obtain ⟨r, hr⟩ := ih (s := t.sendAll) (hpin.trans hp) rfl (hcmd.trans hin) hcs
    have hlen : 4 ≤ t.sending.length := by
      rw [hresp, hs]
      exact resp.four_le_length_serialize
    exact ⟨_, hr.cons hp hs hin hc ht hlen⟩

/-- Settles O57: the reset state is idle, its channels empty. -/
theorem runAfterResetEndsWithEveryResponseSent : Obligations.RunAfterResetEndsWithEveryResponseSent := by
  intro cfg cs hwf
  obtain ⟨r, h⟩ := exists_endsAs (s := State.resetWith cfg) rfl rfl rfl hwf
  exact ⟨r, h.computed, h.responses_length, h.four_le, h.sending, h.cmdIn, h.respOut, h.reached⟩

end Sys2Proof.Machine

/-! ## A message in two chunks (42_keystream.md R164 to R168, 70_reset_and_hazards.md R235) -/

namespace Sys2Proof.Machine

/-- CTR counts modulo 2^64: its value after a wrap is the same sum (R28, R168). -/
theorem State.advanceCtr_ctr (s : State) (n : Nat) : (s.advanceCtr n).ctr = s.ctr + BitVec.ofNat 64 n := by
  by_cases hw : s.ctr.toNat + n = 2 ^ 64
  · rw [State.advanceCtr_wrap s n hw]
    apply BitVec.eq_of_toNat_eq
    rw [BitVec.toNat_add, BitVec.toNat_ofNat, Nat.add_mod_mod, hw]
    rfl
  · rw [State.advanceCtr_next s n hw]

/-- Blocks used are blocks no longer left (R168). -/
theorem State.blocksLeft_advanceCtr {s : State} {n : Nat} (h : n ≤ s.blocksLeft) :
    (s.advanceCtr n).blocksLeft = s.blocksLeft - n := by
  have hadv := advanceCtr_of_le h
  unfold State.blocksLeft at h ⊢
  split_ifs at hadv with hw <;> obtain ⟨hctr, hexh⟩ := hadv <;> rw [hctr, hexh]
  · rw [if_pos rfl]
    split_ifs <;> omega
  · split_ifs at h ⊢ <;> omega

/-- EXH after a counter update: set before, or by the wrap (R28, R168). -/
theorem State.advanceCtr_exh (s : State) (n : Nat) :
    (s.advanceCtr n).exh = (s.exh || decide (s.ctr.toNat + n = 2 ^ 64)) := by
  by_cases hw : s.ctr.toNat + n = 2 ^ 64
  · rw [State.advanceCtr_wrap s n hw, decide_eq_true hw, Bool.or_true]
  · rw [State.advanceCtr_next s n hw, decide_eq_false hw, Bool.or_false]

/-- Two counter updates within the blocks left are one: a wrap by the first leaves no block for the second
(R168). -/
theorem State.advanceCtr_add {s : State} {a b : Nat} (h : a + b ≤ s.blocksLeft) :
    ((s.advanceCtr a).advanceCtr b).ctr = (s.advanceCtr (a + b)).ctr ∧
    ((s.advanceCtr a).advanceCtr b).exh = (s.advanceCtr (a + b)).exh := by
  simp only [State.advanceCtr_ctr, State.advanceCtr_exh]
  refine ⟨by rw [BitVec.add_assoc, BitVec.ofNat_add], ?_⟩
  cases hexh : s.exh with
  | true => simp only [Bool.true_or]
  | false =>
    have hc := s.ctr.isLt
    rw [State.blocksLeft_of_exh hexh] at h
    rw [Bool.false_or, Bool.false_or, ← Bool.decide_or, decide_eq_decide, BitVec.toNat_add, BitVec.toNat_ofNat]
    omega

/-- The keystream of a + b blocks is that of a blocks and, at the counter these leave, that of b blocks (R164). -/
theorem State.keystream_add (s : State) (a b : Nat) :
    s.keystream (a + b) = s.keystream a ++ (s.advanceCtr a).keystream b := by
  simp only [State.keystream, Sys2Proof.Machine.keystream_add, State.advanceCtr_cfg, State.advanceCtr_key,
    State.advanceCtr_nonce, State.advanceCtr_ctr]

section

variable {m₁ : Bytes} (h : m₁.length % 64 = 0) (m₂ : Bytes)

include h

/-- Whole blocks before a message add their number to its blocks (R165). -/
theorem nblocks_append : nblocks (m₁ ++ m₂) = nblocks m₁ + nblocks m₂ := by
  rw [nblocks, nblocks, nblocks, List.length_append]
  omega

/-- Whole blocks before a message are encrypted by themselves, and the message at the counter they leave (R166,
R168). -/
theorem cipherBytes_append (s : State) :
    cipherBytes (m₁ ++ m₂) s = cipherBytes m₁ s ++ cipherBytes m₂ (s.advanceCtr (nblocks m₁)) := by
  have hlen : m₁.length = (s.keystream (nblocks m₁)).length := by
    rw [State.keystream, keystream_length, nblocks]
    omega
  rw [cipherBytes, nblocks_append h, State.keystream_add, List.zipWith_append hlen]
  rfl

end

/-- ENCRYPT with an instance and enough blocks left: what it sends, and the instance it leaves for the next
command (R168). -/
theorem exec_encrypt_leaves {m : Bytes} {s : State} (hv : s.valid = true) (hn : nblocks m ≤ s.blocksLeft) :
    ∃ t, exec (.encrypt m) s = .next t ∧
      t.sending = s.sending ++ ([0, 0, 0, 0] ++ (bytes64 (BitVec.ofNat 64 m.length) ++ cipherBytes m s)) ∧
      t.valid = true ∧ t.cfg = (s.advanceCtr (nblocks m)).cfg ∧ t.key = (s.advanceCtr (nblocks m)).key ∧
      t.nonce = (s.advanceCtr (nblocks m)).nonce ∧ t.ctr = (s.advanceCtr (nblocks m)).ctr ∧
      t.exh = (s.advanceCtr (nblocks m)).exh :=
  ⟨_, exec_encrypt_of_le hv hn, rfl, hv, (State.advanceCtr_cfg s _).symm, (State.advanceCtr_key s _).symm,
    (State.advanceCtr_nonce s _).symm, rfl, rfl⟩

/-- Settles O52: the first chunk leaves the counter, and with it the keystream, at which the whole message goes on
(`cipherBytes_append`, `State.advanceCtr_add`). -/
theorem wholeBlockChunksEncryptLikeTheWhole : Obligations.WholeBlockChunksEncryptLikeTheWhole := by
  intro m₁ m₂ s hv hexh hfirst hn
  have hblocks : nblocks m₁ + nblocks m₂ ≤ s.blocksLeft := by
    rw [← nblocks_append hfirst, State.blocksLeft_of_exh hexh]
    exact hn
  obtain ⟨t, ht, htsend, -, -, -, -, htctr, htexh⟩ :=
    exec_encrypt_leaves (m := m₁ ++ m₂) hv (by rwa [nblocks_append hfirst])
  obtain ⟨u, hu, husend, huv, hucfg, hukey, hunonce, huctr, huexh⟩ :=
    exec_encrypt_leaves (m := m₁) hv (by omega)
  have hleft : nblocks m₂ ≤ u.blocksLeft := by
    rw [State.blocksLeft_congr huctr huexh, State.blocksLeft_advanceCtr] <;> omega
  obtain ⟨v, hv₂, hvsend, -, -, -, -, hvctr, hvexh⟩ := exec_encrypt_leaves (m := m₂) huv hleft
  obtain ⟨hcongrCtr, hcongrExh⟩ := State.advanceCtr_congr huctr huexh (nblocks m₂)
  obtain ⟨haddCtr, haddExh⟩ := State.advanceCtr_add hblocks
  rw [nblocks_append hfirst] at htctr htexh
  refine ⟨t, v, cipherBytes m₁ s, cipherBytes m₂ u, cipherBytes_length m₁ s, cipherBytes_length m₂ u, ht,
    (execAll_of_next _ hu).trans (execAll_of_next [] hv₂), ?_, ?_, ?_, ?_⟩
  · rw [htsend, cipherBytes_append hfirst, cipherBytes_congr hucfg hukey hunonce huctr]
  · rw [hvsend, husend, List.append_assoc]
  · rw [hvctr, hcongrCtr, haddCtr, htctr]
  · rw [hvexh, hcongrExh, haddExh, htexh]

end Sys2Proof.Machine
